-- ==== Sys2Proof/Word.lean ====
section
/-! DEFINITION. The word types of the machine (00_scope R7, R17): all values are unsigned. -/

namespace Sys2Proof

/-- `u8` of R17: a V register, a timer, a memory cell. -/
abbrev Byte := BitVec 8

/-- `u16` of R17: `I`, `pc`, a call-stack entry, an instruction word (R7: ADDR_W = 16). -/
abbrev Word := BitVec 16

/-- The 12-bit address field `nnn` of an instruction word (30_encoding R71). -/
abbrev Addr12 := BitVec 12

/-- The index of a V register: every value of a 4-bit field names one (10_state R21). -/
abbrev Reg := Fin 16

/-- The 4-bit row count `n` of DXYN, used as a count (30_encoding R73). -/
abbrev Count := Fin 16

end Sys2Proof
end

