-- ==== Sys2Proof/Syntax.lean ====
section
/-! DEFINITION. The 35 instructions (30_encoding R79), one constructor per row of the opcode table, with "only
the operand fields it needs" (R72). The operand fields that an instruction ignores (`nnn` of 0NNN, `y` of 8XY6
and 8XYE, R81) are kept, so that an instruction determines its word. -/

namespace Sys2Proof

inductive Instr where
  /-- 00E0, CLS -/
  | cls
  /-- 00EE, RET -/
  | ret
  /-- 0NNN, SYS nnn -/
  | sys (nnn : Addr12)
  /-- 1NNN, JP nnn -/
  | jp (nnn : Addr12)
  /-- 2NNN, CALL nnn -/
  | call (nnn : Addr12)
  /-- 3XNN, SE Vx, nn -/
  | seImm (x : Reg) (nn : Byte)
  /-- 4XNN, SNE Vx, nn -/
  | sneImm (x : Reg) (nn : Byte)
  /-- 5XY0, SE Vx, Vy -/
  | seReg (x y : Reg)
  /-- 6XNN, LD Vx, nn -/
  | ldImm (x : Reg) (nn : Byte)
  /-- 7XNN, ADD Vx, nn -/
  | addImm (x : Reg) (nn : Byte)
  /-- 8XY0, LD Vx, Vy -/
  | ldReg (x y : Reg)
  /-- 8XY1, OR Vx, Vy -/
  | orReg (x y : Reg)
  /-- 8XY2, AND Vx, Vy -/
  | andReg (x y : Reg)
  /-- 8XY3, XOR Vx, Vy -/
  | xorReg (x y : Reg)
  /-- 8XY4, ADD Vx, Vy -/
  | addReg (x y : Reg)
  /-- 8XY5, SUB Vx, Vy -/
  | subReg (x y : Reg)
  /-- 8XY6, SHR Vx; `y` is decoded and ignored -/
  | shr (x y : Reg)
  /-- 8XY7, SUBN Vx, Vy -/
  | subnReg (x y : Reg)
  /-- 8XYE, SHL Vx; `y` is decoded and ignored -/
  | shl (x y : Reg)
  /-- 9XY0, SNE Vx, Vy -/
  | sneReg (x y : Reg)
  /-- ANNN, LD I, nnn -/
  | ldI (nnn : Addr12)
  /-- BNNN, JP V0, nnn -/
  | jpV0 (nnn : Addr12)
  /-- CXNN, RND Vx, nn -/
  | rnd (x : Reg) (nn : Byte)
  /-- DXYN, DRW Vx, Vy, n -/
  | drw (x y : Reg) (n : Count)
  /-- EX9E, SKP Vx -/
  | skp (x : Reg)
  /-- EXA1, SKNP Vx -/
  | sknp (x : Reg)
  /-- FX07, LD Vx, DT -/
  | ldFromDt (x : Reg)
  /-- FX0A, LD Vx, K -/
  | waitKey (x : Reg)
  /-- FX15, LD DT, Vx -/
  | ldDt (x : Reg)
  /-- FX18, LD ST, Vx -/
  | ldSt (x : Reg)
  /-- FX1E, ADD I, Vx -/
  | addI (x : Reg)
  /-- FX29, LD F, Vx -/
  | ldGlyph (x : Reg)
  /-- FX33, LD B, Vx -/
  | storeBcd (x : Reg)
  /-- FX55, LD [I], Vx -/
  | storeRegs (x : Reg)
  /-- FX65, LD Vx, [I] -/
  | loadRegs (x : Reg)
  deriving DecidableEq, Repr

end Sys2Proof
end

