-- ==== Sys2Proof/WellFormed.lean ====
section
/-! DEFINITION. Which terms of `Instr` are instructions. Every operand field has the width of its place in the
word by its type (30_encoding R71, R73), so one check is left: the words 0x00E0 and 0x00EE are CLS and RET, never
a 0NNN (30_encoding R75). -/

namespace Sys2Proof

def Instr.wf : Instr → Bool
  | .sys nnn => nnn != 0x0E0#12 && nnn != 0x0EE#12
  | .cls | .ret | .jp _ | .call _ | .seImm _ _ | .sneImm _ _ | .seReg _ _ | .ldImm _ _ | .addImm _ _
  | .ldReg _ _ | .orReg _ _ | .andReg _ _ | .xorReg _ _ | .addReg _ _ | .subReg _ _ | .shr _ _ | .subnReg _ _
  | .shl _ _ | .sneReg _ _ | .ldI _ | .jpV0 _ | .rnd _ _ | .drw _ _ _ | .skp _ | .sknp _ | .ldFromDt _
  | .waitKey _ | .ldDt _ | .ldSt _ | .addI _ | .ldGlyph _ | .storeBcd _ | .storeRegs _ | .loadRegs _ => true

end Sys2Proof
end

