-- ==== Sys2Proof/Decode.lean ====
section
/-! DEFINITION. The decoder (30_encoding R70 to R78), total on any word and on any bytes, and the encoder written
from the same table (R79). -/

namespace Sys2Proof

/-- Why a word or a byte string is no instruction. -/
inductive DecodeReject where
  /-- R80, "An unrecognized sub-operation within a known group": the step raises DecodeError on it. -/
  | illegalWord (w : Word)
  /-- Fewer than two bytes: no instruction word is there. The machine's fetch never hands such bytes on (its
  own bound check comes first, 20_memory R51). -/
  | truncated
  deriving DecidableEq, Repr

/-- `w[hi:lo]` of R17: the unsigned value of bits `hi` down to `lo`. -/
def slice (w : Word) (hi lo : Nat) : Nat := w.toNat / 2 ^ lo % 2 ^ (hi + 1 - lo)

/-- `op`, "top nibble (bits 12–15)" (R71). -/
def opField (w : Word) : Nat := slice w 15 12

/-- `x` = bits 8–11 (R71), a register index. -/
def xField (w : Word) : Reg := Fin.ofNat 16 (slice w 11 8)

/-- `y` = bits 4–7 (R71), a register index. -/
def yField (w : Word) : Reg := Fin.ofNat 16 (slice w 7 4)

/-- `n` = bits 0–3 (R71), a count. -/
def nField (w : Word) : Count := Fin.ofNat 16 (slice w 3 0)

/-- `nn` = bits 0–7 (R71), an immediate byte. -/
def nnField (w : Word) : Byte := BitVec.ofNat 8 (slice w 7 0)

/-- `nnn` = bits 0–11 (R71), an address. -/
def nnnField (w : Word) : Addr12 := BitVec.ofNat 12 (slice w 11 0)

/-- Group 8, on its low nibble (R76). -/
def decodeGroup8 (w : Word) : Except DecodeReject Instr :=
  match slice w 3 0 with
  | 0x0 => .ok (.ldReg (xField w) (yField w))
  | 0x1 => .ok (.orReg (xField w) (yField w))
  | 0x2 => .ok (.andReg (xField w) (yField w))
  | 0x3 => .ok (.xorReg (xField w) (yField w))
  | 0x4 => .ok (.addReg (xField w) (yField w))
  | 0x5 => .ok (.subReg (xField w) (yField w))
  | 0x6 => .ok (.shr (xField w) (yField w))
  | 0x7 => .ok (.subnReg (xField w) (yField w))
  | 0xE => .ok (.shl (xField w) (yField w))
  | _ => .error (.illegalWord w)

/-- Group E, on its whole low byte (R78). -/
def decodeGroupE (w : Word) : Except DecodeReject Instr :=
  match slice w 7 0 with
  | 0x9E => .ok (.skp (xField w))
  | 0xA1 => .ok (.sknp (xField w))
  | _ => .error (.illegalWord w)

/-- Group F, on its whole low byte (R78). -/
def decodeGroupF (w : Word) : Except DecodeReject Instr :=
  match slice w 7 0 with
  | 0x07 => .ok (.ldFromDt (xField w))
  | 0x0A => .ok (.waitKey (xField w))
  | 0x15 => .ok (.ldDt (xField w))
  | 0x18 => .ok (.ldSt (xField w))
  | 0x1E => .ok (.addI (xField w))
  | 0x29 => .ok (.ldGlyph (xField w))
  | 0x33 => .ok (.storeBcd (xField w))
  | 0x55 => .ok (.storeRegs (xField w))
  | 0x65 => .ok (.loadRegs (xField w))
  | _ => .error (.illegalWord w)

/-- `Decode(w)` (R74), in the order of the rule: the two exact words first (R75), then the top nibble. The last
line is the source's "unrecognized top nibble", which no 16-bit word has (90_conflicts C12). -/
def decode (w : Word) : Except DecodeReject Instr :=
  if w = 0x00E0#16 then .ok .cls
  else if w = 0x00EE#16 then .ok .ret
  else
    match opField w with
    | 0x0 => .ok (.sys (nnnField w))
    | 0x1 => .ok (.jp (nnnField w))
    | 0x2 => .ok (.call (nnnField w))
    | 0x3 => .ok (.seImm (xField w) (nnField w))
    | 0x4 => .ok (.sneImm (xField w) (nnField w))
    | 0x5 => if slice w 3 0 = 0 then .ok (.seReg (xField w) (yField w)) else .error (.illegalWord w)
    | 0x6 => .ok (.ldImm (xField w) (nnField w))
    | 0x7 => .ok (.addImm (xField w) (nnField w))
    | 0x8 => decodeGroup8 w
    | 0x9 => if slice w 3 0 = 0 then .ok (.sneReg (xField w) (yField w)) else .error (.illegalWord w)
    | 0xA => .ok (.ldI (nnnField w))
    | 0xB => .ok (.jpV0 (nnnField w))
    | 0xC => .ok (.rnd (xField w) (nnField w))
    | 0xD => .ok (.drw (xField w) (yField w) (nField w))
    | 0xE => decodeGroupE w
    | 0xF => decodeGroupF w
    | _ => .error (.illegalWord w)

/-- A word from its two bytes, "big-endian, high byte first" (20_memory R52): `mem[pc] * 256 + mem[pc + 1]`. -/
def wordOfBytes (hi lo : Byte) : Word := BitVec.ofNat 16 (hi.toNat * 256 + lo.toNat)

/-- The byte of a word at the lower address (R70). -/
def highByte (w : Word) : Byte := BitVec.ofNat 8 (w.toNat / 256)

/-- The byte of a word at the higher address (R70). -/
def lowByte (w : Word) : Byte := BitVec.ofNat 8 w.toNat

/-- The decoder on a byte string: the first instruction and the bytes after it (R70, R82: always two bytes). -/
def decodeBytes : List Byte → Except DecodeReject (Instr × List Byte)
  | hi :: lo :: rest =>
    match decode (wordOfBytes hi lo) with
    | .ok i => .ok (i, rest)
    | .error r => .error r
  | [_] => .error .truncated
  | [] => .error .truncated

/-- The word of four digits, most significant first (R17, R70). -/
def wordXYN (op x y n : Nat) : Word := BitVec.ofNat 16 (op * 4096 + x * 256 + y * 16 + n)

/-- The word of a group digit, a register digit and a low byte (formats XNN and X, R72). -/
def wordXNN (op x nn : Nat) : Word := BitVec.ofNat 16 (op * 4096 + x * 256 + nn)

/-- The word of a group digit and an address (format NNN, R72). -/
def wordNNN (op nnn : Nat) : Word := BitVec.ofNat 16 (op * 4096 + nnn)

/-- The word of an instruction (R79). -/
def encode : Instr → Word
  | .cls => 0x00E0#16
  | .ret => 0x00EE#16
  | .sys nnn => wordNNN 0x0 nnn.toNat
  | .jp nnn => wordNNN 0x1 nnn.toNat
  | .call nnn => wordNNN 0x2 nnn.toNat
  | .seImm x nn => wordXNN 0x3 x.val nn.toNat
  | .sneImm x nn => wordXNN 0x4 x.val nn.toNat
  | .seReg x y => wordXYN 0x5 x.val y.val 0x0
  | .ldImm x nn => wordXNN 0x6 x.val nn.toNat
  | .addImm x nn => wordXNN 0x7 x.val nn.toNat
  | .ldReg x y => wordXYN 0x8 x.val y.val 0x0
  | .orReg x y => wordXYN 0x8 x.val y.val 0x1
  | .andReg x y => wordXYN 0x8 x.val y.val 0x2
  | .xorReg x y => wordXYN 0x8 x.val y.val 0x3
  | .addReg x y => wordXYN 0x8 x.val y.val 0x4
  | .subReg x y => wordXYN 0x8 x.val y.val 0x5
  | .shr x y => wordXYN 0x8 x.val y.val 0x6
  | .subnReg x y => wordXYN 0x8 x.val y.val 0x7
  | .shl x y => wordXYN 0x8 x.val y.val 0xE
  | .sneReg x y => wordXYN 0x9 x.val y.val 0x0
  | .ldI nnn => wordNNN 0xA nnn.toNat
  | .jpV0 nnn => wordNNN 0xB nnn.toNat
  | .rnd x nn => wordXNN 0xC x.val nn.toNat
  | .drw x y n => wordXYN 0xD x.val y.val n.val
  | .skp x => wordXNN 0xE x.val 0x9E
  | .sknp x => wordXNN 0xE x.val 0xA1
  | .ldFromDt x => wordXNN 0xF x.val 0x07
  | .waitKey x => wordXNN 0xF x.val 0x0A
  | .ldDt x => wordXNN 0xF x.val 0x15
  | .ldSt x => wordXNN 0xF x.val 0x18
  | .addI x => wordXNN 0xF x.val 0x1E
  | .ldGlyph x => wordXNN 0xF x.val 0x29
  | .storeBcd x => wordXNN 0xF x.val 0x33
  | .storeRegs x => wordXNN 0xF x.val 0x55
  | .loadRegs x => wordXNN 0xF x.val 0x65

/-- The two bytes of an instruction as they lie in memory (R70, 20_memory R52). -/
def encodeBytes (i : Instr) : List Byte := [highByte (encode i), lowByte (encode i)]

/-- A row of the opcode table: an instruction's words are those with `w & mask = bits` (R79, the columns `match`
and `mask`). -/
structure OpcodeRow where
  bits : Word
  mask : Word
  deriving DecidableEq, Repr

/-- The row of the opcode table that an instruction belongs to (R79). -/
def Instr.row : Instr → OpcodeRow
  | .cls => ⟨0x00E0#16, 0xFFFF#16⟩
  | .ret => ⟨0x00EE#16, 0xFFFF#16⟩
  | .sys _ => ⟨0x0000#16, 0xF000#16⟩
  | .jp _ => ⟨0x1000#16, 0xF000#16⟩
  | .call _ => ⟨0x2000#16, 0xF000#16⟩
  | .seImm _ _ => ⟨0x3000#16, 0xF000#16⟩
  | .sneImm _ _ => ⟨0x4000#16, 0xF000#16⟩
  | .seReg _ _ => ⟨0x5000#16, 0xF00F#16⟩
  | .ldImm _ _ => ⟨0x6000#16, 0xF000#16⟩
  | .addImm _ _ => ⟨0x7000#16, 0xF000#16⟩
  | .ldReg _ _ => ⟨0x8000#16, 0xF00F#16⟩
  | .orReg _ _ => ⟨0x8001#16, 0xF00F#16⟩
  | .andReg _ _ => ⟨0x8002#16, 0xF00F#16⟩
  | .xorReg _ _ => ⟨0x8003#16, 0xF00F#16⟩
  | .addReg _ _ => ⟨0x8004#16, 0xF00F#16⟩
  | .subReg _ _ => ⟨0x8005#16, 0xF00F#16⟩
  | .shr _ _ => ⟨0x8006#16, 0xF00F#16⟩
  | .subnReg _ _ => ⟨0x8007#16, 0xF00F#16⟩
  | .shl _ _ => ⟨0x800E#16, 0xF00F#16⟩
  | .sneReg _ _ => ⟨0x9000#16, 0xF00F#16⟩
  | .ldI _ => ⟨0xA000#16, 0xF000#16⟩
  | .jpV0 _ => ⟨0xB000#16, 0xF000#16⟩
  | .rnd _ _ => ⟨0xC000#16, 0xF000#16⟩
  | .drw _ _ _ => ⟨0xD000#16, 0xF000#16⟩
  | .skp _ => ⟨0xE09E#16, 0xF0FF#16⟩
  | .sknp _ => ⟨0xE0A1#16, 0xF0FF#16⟩
  | .ldFromDt _ => ⟨0xF007#16, 0xF0FF#16⟩
  | .waitKey _ => ⟨0xF00A#16, 0xF0FF#16⟩
  | .ldDt _ => ⟨0xF015#16, 0xF0FF#16⟩
  | .ldSt _ => ⟨0xF018#16, 0xF0FF#16⟩
  | .addI _ => ⟨0xF01E#16, 0xF0FF#16⟩
  | .ldGlyph _ => ⟨0xF029#16, 0xF0FF#16⟩
  | .storeBcd _ => ⟨0xF033#16, 0xF0FF#16⟩
  | .storeRegs _ => ⟨0xF055#16, 0xF0FF#16⟩
  | .loadRegs _ => ⟨0xF065#16, 0xF0FF#16⟩

/-- The bytes, as the hardware stores them, of an instruction given as a number whose bit 0 is the least
significant bit of its word. An instruction is one 16-bit word (R70), so bits from 16 up are none of its. -/
def tableBytes (w : Nat) : List Byte :=
  [highByte (BitVec.ofNat 16 w), lowByte (BitVec.ofNat 16 w)]

/-- What the decoder reads from the lowest `nbits` bits of `w`, every bit above them being 0. -/
def decodeTableWord (nbits w : Nat) : Option Instr :=
  match decodeBytes (tableBytes (w % 2 ^ nbits)) with
  | .ok (i, _) => some i
  | .error _ => none

end Sys2Proof
end

