-- ==== Sys2Proof/Config.lean ====
section
/-! DEFINITION. What is fixed for the machine (00_scope R6 to R9), and the free per-tick inputs (R14), which
nothing constrains. -/

namespace Sys2Proof

/-- MEM_SIZE (R6). -/
@[simp] abbrev Config.memSize : Nat := 4096

/-- PROG_BASE (R6): where the ROM is loaded and where `pc` starts. -/
@[simp] abbrev Config.progBase : Nat := 0x200

/-- ROM_MAX (R6): 4096 - 0x200 bytes. -/
@[simp] abbrev Config.romMax : Nat := 3584

/-- STACK_DEPTH (R6). -/
@[simp] abbrev Config.stackDepth : Nat := 16

/-- DISPLAY_W (R8, decision D17): an OPEN parameter at its default. UNVERIFIED, unsafe: log 8. -/
def Config.displayW : Nat := 64

/-- DISPLAY_H (R8, decision D17): an OPEN parameter at its default. UNVERIFIED, unsafe: log 8. -/
def Config.displayH : Nat := 32

/-- FONT_BASE (R8, decision D19): an OPEN parameter at its default. UNVERIFIED, unsafe: log 9. -/
def Config.fontBase : Nat := 0x000

/-- FONT_STRIDE (R8, decision D19): an OPEN parameter at its default. UNVERIFIED, unsafe: log 9. -/
def Config.fontStride : Nat := 5

/-- TICK_HZ (R9): nominal rate while RUNNING; no rule reads it. -/
def Config.tickHz : Nat := 60

/-- IDLE_HZ (R9): nominal polling rate after a halt; no rule reads it. -/
def Config.idleHz : Nat := 5

/-- FREE VALUE: `in.key_down` at the given tick (R14), bit `k` being the answer for key identifier `k`.
No body, so nothing can be proved of it. Log 1. -/
opaque Config.freeKeyDown : Nat → BitVec 256

/-- FREE VALUE: `in.key_event` at the given tick (R14). Log 1. -/
opaque Config.freeKeyEvent : Nat → Option Byte

/-- FREE VALUE: `in.rnd` at the given tick (R14). Log 1. -/
opaque Config.freeRnd : Nat → Byte

end Sys2Proof
end

