-- ==== Sys2Proof/Machine/State.lean ====
section
/-! DEFINITION. The state of the block (10_state R20 to R42), as plain data, and its value after reset. -/

namespace Sys2Proof.Machine

/-- `run` (R33). The encoding on `run_state` is in Machine/Ports.lean. -/
inductive RunState where
  | running
  | halted
  | faulted
  deriving DecidableEq, Repr

/-- The faults of the machine (60_exceptions R201), the causes of a fault record.
Each is TAKEN: fault entry (R206) is a next state with `run` FAULTED and the record written, so no step of this
model ends in `Outcome.fault` (log 3). No constructor adds a stop to the machine: safe. -/
inductive Fault where
  /-- Code 1, raised by the decode stage on the words of 30_encoding R80 (R202). Taken as a next state: safe. -/
  | decodeError
  /-- Code 2, raised by 00EE with `sp = 0` (R203). Taken as a next state: safe. -/
  | stackUnderflow
  /-- Code 3, raised by 2NNN with `sp = 16` (R204, decision D10). Taken as a next state: safe. -/
  | stackOverflow
  /-- Code 4, raised by the fetch and by DXYN, FX33, FX55, FX65 when the byte range passes 4095 (R205). Taken as
  a next state: safe. -/
  | memoryOutOfRange
  deriving DecidableEq, Repr

/-- Why an instruction has no meaning here. -/
inductive Refusal where
  /-- Raised by an arm of `exec` for an instruction of the opcode table without a meaning; every instruction has
  its meaning, so nothing raises it. Safe. -/
  | notModelled (mnemonic : String)
  deriving DecidableEq, Repr

/-- The fault record (R34): cause, `pc0`, the fetched word or 0, the first out-of-range address or 0. -/
structure FaultRecord where
  cause : Fault
  pc : Word
  word : Word
  addr : Word
  deriving DecidableEq, Repr

/-- `out.disp` (00_scope R15). -/
inductive DispCmd where
  | none
  | clear
  | draw (x y : Byte) (rows : List Byte)
  deriving DecidableEq, Repr

/-- The outputs of one tick, the record `out` (00_scope R15). -/
structure TickOut where
  disp : DispCmd
  keyWait : Bool
  deriving DecidableEq, Repr

/-- The inputs of one tick, the record `in` (00_scope R14): bit `k` of `keyDown` is `in.key_down(k)`. -/
structure TickIn where
  keyDown : BitVec 256
  keyEvent : Option Byte
  rnd : Byte
  deriving DecidableEq, Repr

/-- `mem` (R35): the cells that are not 0, by rising address. The form is `Memory.wf` of Machine/Memory.lean. -/
abbrev Memory := List Host.Cell

/-- The state. The first ten fields are the spec's (R20); the last three are the model's own. -/
structure State where
  /-- `V[0..15]` (R21) -/
  v : Vector Byte 16
  /-- `I` (R25) -/
  I : Word
  /-- `pc` (R26): between ticks the address of the next instruction -/
  pc : Word
  /-- `stack[0..15]` (R29): the slots, live below `sp` -/
  stack : Vector Word 16
  /-- `sp` (R29): the depth, 0 to 16 -/
  sp : Fin 17
  /-- `dt`, the delay timer (R31) -/
  dt : Byte
  /-- `st`, the sound timer (R32) -/
  st : Byte
  /-- `run` (R33) -/
  run : RunState
  /-- `fault` (R34) -/
  fault : Option FaultRecord
  /-- `mem[0..4095]` (R35) -/
  mem : Memory
  /-- The outputs of the last tick (00_scope R15). DESIGN CHOICE: log 2. -/
  out : TickOut
  /-- The input records of the coming ticks as far as they are given; past its end the inputs are the free values
  of Config. DESIGN CHOICE: log 1. -/
  inputs : List TickIn
  /-- The ticks since reset, the argument of the free values of Config. DESIGN CHOICE: log 1. -/
  tick : Nat
  deriving DecidableEq, Repr

/-- After reset (R42, 70_reset R230), before a ROM is loaded. The spec leaves the stack slots unspecified; 0 is the
model's DESIGN CHOICE (log 5, unsafe); so are the values of the model's own fields (log 1, log 2). -/
def State.reset : State where
  v := Vector.replicate 16 0#8
  I := 0#16
  pc := 0x200#16
  stack := Vector.replicate 16 0#16
  sp := 0
  dt := 0#8
  st := 0#8
  run := .running
  fault := none
  mem := []
  out := ⟨.none, false⟩
  inputs := []
  tick := 0

end Sys2Proof.Machine
end

