-- ==== Sys2Proof/Machine/Memory.lean ====
section
/-! DEFINITION. The 4096-byte memory (10_state R35, 20_memory R50 to R59) as a canonical list of cells. A key is
the address as a natural number; addresses are formed without wrap (R51). -/

namespace Sys2Proof.Machine

/-- What an unlisted address reads as: "memory zeroed" at reset (10_state R35). -/
def Memory.unlisted : Byte := 0#8

/-- One byte. -/
def Memory.read : Memory → Nat → Byte
  | [], _ => Memory.unlisted
  | (k, b) :: rest, a => if k = a then b else Memory.read rest a

/-- The memory with the cell at `a` no longer listed. -/
def Memory.erase : Memory → Nat → Memory
  | [], _ => []
  | (k, b) :: rest, a => if k = a then Memory.erase rest a else (k, b) :: Memory.erase rest a

/-- A cell put in its place by rising address. -/
def Memory.insert : Memory → Nat → Byte → Memory
  | [], a, b => [(a, b)]
  | (k, c) :: rest, a, b => if a < k then (a, b) :: (k, c) :: rest else (k, c) :: Memory.insert rest a b

/-- `mem[a] <- b`, keeping the canonical form: the value an unlisted address reads as is not listed. -/
def Memory.write (m : Memory) (a : Nat) (b : Byte) : Memory :=
  if b = Memory.unlisted then m.erase a else (m.erase a).insert a b

/-- `mem[a + k]` for `k = 0` to `n - 1` (00_scope R18, `MemRead`). -/
def Memory.readBytes (m : Memory) (a : Nat) : Nat → List Byte
  | 0 => []
  | n + 1 => m.read a :: m.readBytes (a + 1) n

/-- `mem[a + k] <- v[k]` for each byte of the list (00_scope R18, `MemWrite`). -/
def Memory.writeBytes : Memory → Nat → List Byte → Memory
  | m, _, [] => m
  | m, a, b :: rest => Memory.writeBytes (m.write a b) (a + 1) rest

/-- The canonical form from address `lo` up: strictly rising addresses inside the address space, no cell that reads
as an unlisted one. -/
def Memory.wfFrom : Nat → Memory → Bool
  | _, [] => true
  | lo, (k, b) :: rest =>
    decide (lo ≤ k) && decide (k < Config.memSize) && decide (b ≠ Memory.unlisted) && Memory.wfFrom (k + 1) rest

/-- The canonical form. -/
def Memory.wf (m : Memory) : Bool := Memory.wfFrom 0 m

/-- Whether an access of `n` bytes at `a` is in range (20_memory R51): always with no bytes, else `a + n - 1 <= 4095`
in unbounded integers. -/
def accessInRange (a n : Nat) : Bool := n == 0 || decide (a + n ≤ Config.memSize)

/-- The first address out of range of an access at `a` that is not in range: `max(a, 4096)` (00_scope R18). -/
def firstOutOfRange (a : Word) : Word := BitVec.ofNat 16 (max a.toNat Config.memSize)

end Sys2Proof.Machine
end

