-- ==== Sys2Proof/Machine/Ops.lean ====
section
/-! DEFINITION. The primitives of 00_scope R18 over the state, fault entry (60_exceptions R206), the program counter
sequencer (40_engine_cycle R96 to R98), and how an instruction's effect becomes the next state (R90, R94). -/

namespace Sys2Proof.Machine

/-- `V[i]` (R18). -/
def State.reg (s : State) (i : Reg) : Byte := s.v[i.val]

/-- `V[i] <- b` (R18). -/
def State.setReg (s : State) (i : Reg) (b : Byte) : State := { s with v := s.v.set i.val b }

/-- `V[k] <- b[k]` for each byte of the list (45 R161). -/
def State.setRegs (s : State) (bs : List Byte) : State :=
  { s with v := Vector.ofFn fun k => bs.getD k.val s.v[k.val] }

/-- `I <- v` (R18). -/
def State.setI (s : State) (w : Word) : State := { s with I := w }

/-- `dt <- b`. -/
def State.setDt (s : State) (b : Byte) : State := { s with dt := b }

/-- `st <- b`. -/
def State.setSt (s : State) (b : Byte) : State := { s with st := b }

/-- The whole memory, replaced. -/
def State.setMem (s : State) (m : Memory) : State := { s with mem := m }

/-- The tick's outputs. -/
def State.setOut (s : State) (o : TickOut) : State := { s with out := o }

/-- `pc` and `run`, the two fields the sequencer writes (40 R97). -/
def State.setPcRun (s : State) (pc : Word) (r : RunState) : State := { s with pc := pc, run := r }

/-- One byte of memory. -/
def State.byte (s : State) (a : Nat) : Byte := s.mem.read a

/-- What a `raise` carries (R18): the cause, and the first out-of-range address or 0. -/
structure Raise where
  cause : Fault
  addr : Word
  deriving DecidableEq, Repr

/-- The outputs of a tick that issues nothing: `{disp: None, key_wait: 0}` (40 R90). -/
def TickOut.idle : TickOut := ⟨.none, false⟩

/-- FAULT ENTRY (60 R206, 40 R101): `run <- FAULTED`, the record is written with `pc0`, and nothing else of the
block changes; the tick issues nothing. There is no return from a fault (60 R209): only reset leaves FAULTED. -/
def State.takeFault (s : State) (r : Raise) (word : Word) : State :=
  { s with run := .faulted, fault := some ⟨r.cause, s.pc, word, r.addr⟩, out := .idle }

/-- `MemRead(addr, n)` (R18): checked whole before the first byte. -/
def State.memRead (s : State) (a : Word) (n : Nat) : Except Raise (List Byte) :=
  if accessInRange a.toNat n then .ok (s.mem.readBytes a.toNat n)
  else .error ⟨.memoryOutOfRange, firstOutOfRange a⟩

/-- `MemWrite(addr, n, v)` with `n` the length of `v` (R18): checked whole before the first byte. -/
def State.memWrite (s : State) (a : Word) (bs : List Byte) : Except Raise State :=
  if accessInRange a.toNat bs.length then .ok (s.setMem (s.mem.writeBytes a.toNat bs))
  else .error ⟨.memoryOutOfRange, firstOutOfRange a⟩

/-- `Push(v)` (R18): StackOverflow at depth 16. -/
def State.push (s : State) (w : Word) : Except Raise State :=
  if h : s.sp.val < Config.stackDepth then
    .ok { s with stack := s.stack.set s.sp.val w h, sp := ⟨s.sp.val + 1, Nat.succ_lt_succ h⟩ }
  else .error ⟨.stackOverflow, 0#16⟩

/-- The top of the call stack, `stack[sp - 1]` (10_state R29). -/
def State.top (s : State) : Word := s.stack[s.sp.val - 1]'(by omega)

/-- `Pop()` (R18): StackUnderflow at depth 0; else the value and the state with `sp` one less. The slot keeps its
content (41 R111). -/
def State.pop (s : State) : Except Raise (Word × State) :=
  if s.sp.val = 0 then .error ⟨.stackUnderflow, 0#16⟩
  else .ok (s.top, { s with sp := ⟨s.sp.val - 1, by omega⟩ })

/-- `pc_action` (40 R96). -/
inductive PcAction where
  | next
  | skip
  | goto (t : Word)
  | hold
  | stop
  deriving DecidableEq, Repr

/-- SKIP if the condition holds, else NEXT (42_skips, 47 R181, R182). -/
def skipIf (c : Bool) : PcAction := if c then .skip else .next

/-- The address `Sequence` writes to `pc` (40 R97). -/
def PcAction.target (pc0 : Word) : PcAction → Word
  | .next => pc0 + 2#16
  | .skip => pc0 + 4#16
  | .goto t => t
  | .hold => pc0
  | .stop => pc0

/-- What `Sequence` leaves in `run` (40 R97, R98): STOP halts, HOLD never does, the others halt when `pc` did not
move. -/
def PcAction.runAfter (pc0 : Word) (r : RunState) : PcAction → RunState
  | .stop => .halted
  | .hold => r
  | .next => if pc0 + 2#16 = pc0 then .halted else r
  | .skip => if pc0 + 4#16 = pc0 then .halted else r
  | .goto t => if t = pc0 then .halted else r

/-- `Sequence(pc0, action)` (40 R97). -/
def State.sequence (s : State) (pc0 : Word) (act : PcAction) : State :=
  s.setPcRun (act.target pc0) (act.runAfter pc0 s.run)

/-- What the execute stage of an instruction gives (40 R94): the state with its writes applied, the display command
and the `pc_action`; or a raise. -/
inductive Effect where
  | done (s : State) (disp : DispCmd) (act : PcAction)
  | raised (r : Raise)
  deriving DecidableEq, Repr

/-- `key_wait: (action = HOLD)` (40 R90). -/
def PcAction.isHold : PcAction → Bool
  | .hold => true
  | .next | .skip | .goto _ | .stop => false

/-- The rest of the tick after `Execute` but for the countdown (40 R90): the writes stand, the outputs are driven and
the sequencer runs with `pc0` the address of the instruction; or the fault is taken with the instruction's word. -/
def Effect.apply (i : Instr) (s : State) : Effect → State
  | .done s' disp act => (s'.setOut ⟨disp, act.isHold⟩).sequence s.pc act
  | .raised r => s.takeFault r (encode i)

/-- The outcome of instruction `i` with the given effect in state `s`. -/
def conclude (i : Instr) (s : State) (e : Effect) : Host.Outcome State Fault Refusal := .next (e.apply i s)

end Sys2Proof.Machine
end

