-- ==== Sys2Proof/Machine/Flags.lean ====
section
/-! DEFINITION. The flag of the five flag-writing instructions (10_state R37) and the order of its write (44_alu
R140). -/

namespace Sys2Proof.Machine

/-- VF, `V[15]` (10_state R23). -/
def regF : Reg := 15

/-- A flag value: 1 or 0. -/
def flagByte (c : Bool) : Byte := if c then 1#8 else 0#8

/-- 8XY4: 1 iff the unwrapped sum exceeds 255 (R145). -/
def carryFlag (a b : Byte) : Byte := flagByte (decide (255 < a.toNat + b.toNat))

/-- 8XY5 and 8XY7: 1 iff `a - b` needs no borrow (R146, R148; decision D14, log 12). -/
def noBorrowFlag (a b : Byte) : Byte := flagByte (decide (b.toNat ≤ a.toNat))

/-- 8XY6: the bit shifted out, bit 0 (R147). -/
def evictedRight (a : Byte) : Byte := flagByte (a.toNat % 2 == 1)

/-- 8XYE: the bit shifted out, bit 7, as 0 or 1 (R149). -/
def evictedLeft (a : Byte) : Byte := flagByte (a.toNat / 128 == 1)

/-- `V[15] <- f`, then `V[x] <- r` (R140): with `x = 15` the result stands (decision D13, log 11). -/
def State.setFlagThenReg (s : State) (x : Reg) (f r : Byte) : State := (s.setReg regF f).setReg x r

end Sys2Proof.Machine
end

