-- ==== Sys2Proof/Machine/Operands.lean ====
section
/-! DEFINITION. The operand forms (30_encoding R73, 45 R162) and the inputs of the tick (00_scope R14). Register
operands are `State.reg`; an immediate byte is used as it stands. -/

namespace Sys2Proof.Machine

/-- `zext_16(nnn)`: a 12-bit address where it is written to `I` or `pc` (30_encoding R73). -/
def zextAddr (nnn : Addr12) : Word := BitVec.ofNat 16 nnn.toNat

/-- `zext_16(b)`: a register value where it is added to an address (41 R114, 45 R156). -/
def zextByte (b : Byte) : Word := BitVec.ofNat 16 b.toNat

/-- `[V[0], V[1], ..., V[x]]` (45 R160). -/
def State.regsUpTo (s : State) (x : Reg) : List Byte := s.v.toList.take (x.val + 1)

/-- The decimal digits of a byte, hundreds, tens, ones (45 R159). -/
def decimalDigits (v : Byte) : List Byte :=
  [BitVec.ofNat 8 (v.toNat / 100), BitVec.ofNat 8 (v.toNat / 10 % 10), BitVec.ofNat 8 (v.toNat % 10)]

/-- The glyph address of the low nibble of a byte (45 R157). -/
def glyphAddr (v : Byte) : Word := BitVec.ofNat 16 (Config.fontBase + Config.fontStride * (v.toNat % 16))

/-- The horizontal origin of a draw, taken modulo the display width (46 R171). -/
def drawX (v : Byte) : Byte := BitVec.ofNat 8 (v.toNat % Config.displayW)

/-- The vertical origin of a draw, taken modulo the display height (46 R171). -/
def drawY (v : Byte) : Byte := BitVec.ofNat 8 (v.toNat % Config.displayH)

/-- The free inputs of the tick with the given number (00_scope R14: an oracle under no law; log 1). -/
def freeInput (tick : Nat) : TickIn :=
  ⟨Config.freeKeyDown tick, Config.freeKeyEvent tick, Config.freeRnd tick⟩

/-- The inputs of the current tick: the next given record, or else the free inputs. -/
def State.input (s : State) : TickIn :=
  match s.inputs with
  | [] => freeInput s.tick
  | inp :: _ => inp

/-- `in.key_down(k)`, asked with the whole byte (47 R180). -/
def State.keyDown (s : State) (k : Byte) : Bool := s.input.keyDown.getLsbD k.toNat

end Sys2Proof.Machine
end

