-- ==== Sys2Proof/Machine/Alu.lean ====
section
/-! DEFINITION. 8XY0 to 8XY7 and 8XYE (44_alu). Both operands are read from the state at the start of the tick
(R140); sums and differences are exact and cut to 8 bits once (R150). -/

namespace Sys2Proof.Machine

/-- 8XY0 (R141). -/
def execLdReg (x y : Reg) (s : State) : Host.Outcome State Fault Refusal :=
  conclude (.ldReg x y) s (.done (s.setReg x (s.reg y)) .none .next)

/-- 8XY1 (R142): no flag. -/
def execOrReg (x y : Reg) (s : State) : Host.Outcome State Fault Refusal :=
  conclude (.orReg x y) s (.done (s.setReg x (s.reg x ||| s.reg y)) .none .next)

/-- 8XY2 (R143): no flag. -/
def execAndReg (x y : Reg) (s : State) : Host.Outcome State Fault Refusal :=
  conclude (.andReg x y) s (.done (s.setReg x (s.reg x &&& s.reg y)) .none .next)

/-- 8XY3 (R144): no flag. -/
def execXorReg (x y : Reg) (s : State) : Host.Outcome State Fault Refusal :=
  conclude (.xorReg x y) s (.done (s.setReg x (s.reg x ^^^ s.reg y)) .none .next)

/-- 8XY4 (R145). -/
def execAddReg (x y : Reg) (s : State) : Host.Outcome State Fault Refusal :=
  conclude (.addReg x y) s
    (.done
      (s.setFlagThenReg x (carryFlag (s.reg x) (s.reg y)) (BitVec.ofNat 8 ((s.reg x).toNat + (s.reg y).toNat)))
      .none .next)

/-- `(a - b) mod 256` (R146): `a - b + 256` when `a < b`. -/
def subByte (a b : Byte) : Byte := BitVec.ofNat 8 (a.toNat + 256 - b.toNat)

/-- 8XY5 (R146): `V[x] - V[y]`. -/
def execSubReg (x y : Reg) (s : State) : Host.Outcome State Fault Refusal :=
  conclude (.subReg x y) s
    (.done (s.setFlagThenReg x (noBorrowFlag (s.reg x) (s.reg y)) (subByte (s.reg x) (s.reg y))) .none .next)

/-- 8XY6 (R147): `V[x]` in place; `y` is ignored (decision D12, log 10). -/
def execShr (x y : Reg) (s : State) : Host.Outcome State Fault Refusal :=
  conclude (.shr x y) s
    (.done (s.setFlagThenReg x (evictedRight (s.reg x)) (BitVec.ofNat 8 ((s.reg x).toNat / 2))) .none .next)

/-- 8XY7 (R148): `V[y] - V[x]`, the flag in the sense of 8XY5. -/
def execSubnReg (x y : Reg) (s : State) : Host.Outcome State Fault Refusal :=
  conclude (.subnReg x y) s
    (.done (s.setFlagThenReg x (noBorrowFlag (s.reg y) (s.reg x)) (subByte (s.reg y) (s.reg x))) .none .next)

/-- 8XYE (R149): `V[x]` in place; `y` is ignored (decision D12, log 10). -/
def execShl (x y : Reg) (s : State) : Host.Outcome State Fault Refusal :=
  conclude (.shl x y) s
    (.done (s.setFlagThenReg x (evictedLeft (s.reg x)) (BitVec.ofNat 8 ((s.reg x).toNat * 2))) .none .next)

end Sys2Proof.Machine
end

