-- ==== Sys2Proof/Machine/ControlFlow.lean ====
section
/-! DEFINITION. 0NNN, 00EE, 1NNN, 2NNN, BNNN (41_control_flow). -/

namespace Sys2Proof.Machine

/-- 0NNN (R110): STOP; `nnn` is ignored. -/
def execSys (nnn : Addr12) (s : State) : Host.Outcome State Fault Refusal :=
  conclude (.sys nnn) s (.done s .none .stop)

/-- 00EE (R111): the popped value is the address of the 2NNN, so control resumes two bytes after it (decision D7,
log 17). -/
def execRet (s : State) : Host.Outcome State Fault Refusal :=
  conclude .ret s
    (match s.pop with
    | .error r => .raised r
    | .ok (t, s') => .done s' .none (.goto (t + 2#16)))

/-- 1NNN (R112). -/
def execJp (nnn : Addr12) (s : State) : Host.Outcome State Fault Refusal :=
  conclude (.jp nnn) s (.done s .none (.goto (zextAddr nnn)))

/-- 2NNN (R113): pushes its own address. -/
def execCall (nnn : Addr12) (s : State) : Host.Outcome State Fault Refusal :=
  conclude (.call nnn) s
    (match s.push s.pc with
    | .error r => .raised r
    | .ok s' => .done s' .none (.goto (zextAddr nnn)))

/-- BNNN (R114): `NNN + V[0]`, not cut to 12 bits (decision D31, log 21). -/
def execJpV0 (nnn : Addr12) (s : State) : Host.Outcome State Fault Refusal :=
  conclude (.jpV0 nnn) s (.done s .none (.goto (zextAddr nnn + zextByte (s.reg 0))))

end Sys2Proof.Machine
end

