-- ==== Sys2Proof/Machine/Display.lean ====
section
/-! DEFINITION. 00E0, DXYN (46_display). They write no state of the block; the command is the tick's output. -/

namespace Sys2Proof.Machine

/-- 00E0 (R170). -/
def execCls (s : State) : Host.Outcome State Fault Refusal :=
  conclude .cls s (.done s .clear .next)

/-- DXYN (R171): VF is not written (R172, decision D16, log 14). -/
def execDrw (x y : Reg) (n : Count) (s : State) : Host.Outcome State Fault Refusal :=
  conclude (.drw x y n) s
    (match s.memRead s.I n.val with
    | .error r => .raised r
    | .ok rows => .done s (.draw (drawX (s.reg x)) (drawY (s.reg y)) rows) .next)

end Sys2Proof.Machine
end

