-- ==== Sys2Proof/Machine/IndexMemory.lean ====
section
/-! DEFINITION. ANNN, FX1E, FX29, FX33, FX55, FX65 (45_index_memory). -/

namespace Sys2Proof.Machine

/-- ANNN (R155). -/
def execLdI (nnn : Addr12) (s : State) : Host.Outcome State Fault Refusal :=
  conclude (.ldI nnn) s (.done (s.setI (zextAddr nnn)) .none .next)

/-- FX1E (R156): modulo 65536, no flag. -/
def execAddI (x : Reg) (s : State) : Host.Outcome State Fault Refusal :=
  conclude (.addI x) s (.done (s.setI (s.I + zextByte (s.reg x))) .none .next)

/-- FX29 (R157). -/
def execLdGlyph (x : Reg) (s : State) : Host.Outcome State Fault Refusal :=
  conclude (.ldGlyph x) s (.done (s.setI (glyphAddr (s.reg x))) .none .next)

/-- An instruction whose effect is one store of the given bytes at `I` (R159, R160). -/
def storeAtI (s : State) (bs : List Byte) : Effect :=
  match s.memWrite s.I bs with
  | .error r => .raised r
  | .ok s' => .done s' .none .next

/-- FX33 (R159). -/
def execStoreBcd (x : Reg) (s : State) : Host.Outcome State Fault Refusal :=
  conclude (.storeBcd x) s (storeAtI s (decimalDigits (s.reg x)))

/-- FX55 (R160): `I` unchanged. -/
def execStoreRegs (x : Reg) (s : State) : Host.Outcome State Fault Refusal :=
  conclude (.storeRegs x) s (storeAtI s (s.regsUpTo x))

/-- FX65 (R161): `I` unchanged. -/
def execLoadRegs (x : Reg) (s : State) : Host.Outcome State Fault Refusal :=
  conclude (.loadRegs x) s
    (match s.memRead s.I (x.val + 1) with
    | .error r => .raised r
    | .ok bs => .done (s.setRegs bs) .none .next)

end Sys2Proof.Machine
end

