-- ==== Sys2Proof/Machine/KeypadTimers.lean ====
section
/-! DEFINITION. EX9E, EXA1, FX07, FX0A, FX15, FX18 (47_keypad_timers). -/

namespace Sys2Proof.Machine

/-- EX9E (R181). -/
def execSkp (x : Reg) (s : State) : Host.Outcome State Fault Refusal :=
  conclude (.skp x) s (.done s .none (skipIf (s.keyDown (s.reg x))))

/-- EXA1 (R182). -/
def execSknp (x : Reg) (s : State) : Host.Outcome State Fault Refusal :=
  conclude (.sknp x) s (.done s .none (skipIf (!s.keyDown (s.reg x))))

/-- FX07 (R183): `dt` before this tick's countdown. -/
def execLdFromDt (x : Reg) (s : State) : Host.Outcome State Fault Refusal :=
  conclude (.ldFromDt x) s (.done (s.setReg x s.dt) .none .next)

/-- FX0A (R184): HOLD while no key is reported, else the whole byte reported. -/
def execWaitKey (x : Reg) (s : State) : Host.Outcome State Fault Refusal :=
  conclude (.waitKey x) s
    (match s.input.keyEvent with
    | none => .done s .none .hold
    | some k => .done (s.setReg x k) .none .next)

/-- FX15 (R185). -/
def execLdDt (x : Reg) (s : State) : Host.Outcome State Fault Refusal :=
  conclude (.ldDt x) s (.done (s.setDt (s.reg x)) .none .next)

/-- FX18 (R186). -/
def execLdSt (x : Reg) (s : State) : Host.Outcome State Fault Refusal :=
  conclude (.ldSt x) s (.done (s.setSt (s.reg x)) .none .next)

end Sys2Proof.Machine
end

