-- ==== Sys2Proof/Machine/LoadAddRandom.lean ====
section
/-! DEFINITION. 6XNN, 7XNN, CXNN (43_load_add_random). -/

namespace Sys2Proof.Machine

/-- 6XNN (R130). -/
def execLdImm (x : Reg) (nn : Byte) (s : State) : Host.Outcome State Fault Refusal :=
  conclude (.ldImm x nn) s (.done (s.setReg x nn) .none .next)

/-- 7XNN (R131): modulo 256, no flag. -/
def execAddImm (x : Reg) (nn : Byte) (s : State) : Host.Outcome State Fault Refusal :=
  conclude (.addImm x nn) s
    (.done (s.setReg x (BitVec.ofNat 8 ((s.reg x).toNat + nn.toNat))) .none .next)

/-- CXNN (R132): the random byte is the tick's input. -/
def execRnd (x : Reg) (nn : Byte) (s : State) : Host.Outcome State Fault Refusal :=
  conclude (.rnd x nn) s (.done (s.setReg x (s.input.rnd &&& nn)) .none .next)

end Sys2Proof.Machine
end

