-- ==== Sys2Proof/Machine/Skips.lean ====
section
/-! DEFINITION. 3XNN, 4XNN, 5XY0, 9XY0 (42_skips). -/

namespace Sys2Proof.Machine

/-- 3XNN (R120). -/
def execSeImm (x : Reg) (nn : Byte) (s : State) : Host.Outcome State Fault Refusal :=
  conclude (.seImm x nn) s (.done s .none (skipIf (s.reg x == nn)))

/-- 4XNN (R121). -/
def execSneImm (x : Reg) (nn : Byte) (s : State) : Host.Outcome State Fault Refusal :=
  conclude (.sneImm x nn) s (.done s .none (skipIf (s.reg x != nn)))

/-- 5XY0 (R122). -/
def execSeReg (x y : Reg) (s : State) : Host.Outcome State Fault Refusal :=
  conclude (.seReg x y) s (.done s .none (skipIf (s.reg x == s.reg y)))

/-- 9XY0 (R123). -/
def execSneReg (x y : Reg) (s : State) : Host.Outcome State Fault Refusal :=
  conclude (.sneReg x y) s (.done s .none (skipIf (s.reg x != s.reg y)))

end Sys2Proof.Machine
end

