-- ==== Sys2Proof/Machine/Engine.lean ====
section
/-! DEFINITION. The stages of a tick around the execute stage: fetch, the fault of the decode stage, the countdown
and the end of the tick (40_engine_cycle R90 to R99, 60_exceptions R215). -/

namespace Sys2Proof.Machine

/-- `Fetch(pc0)` (40 R92): two bytes, big-endian; MemoryOutOfRange when `pc0 > 4094`. -/
def State.fetch (s : State) : Except Raise Word :=
  if accessInRange s.pc.toNat 2 then .ok (wordOfBytes (s.byte s.pc.toNat) (s.byte (s.pc.toNat + 1)))
  else .error ⟨.memoryOutOfRange, firstOutOfRange s.pc⟩

/-- One timer of `CountDown` (60 R215): one less while greater than 0, else held at 0. -/
def countDownByte (t : Byte) : Byte := if t = 0#8 then 0#8 else t - 1#8

/-- `CountDown()` (60 R215). -/
def State.countDown (s : State) : State := { s with dt := countDownByte s.dt, st := countDownByte s.st }

/-- One record of inputs is used by every tick (00_scope R11, log 1). -/
def State.nextInput (s : State) : State := { s with inputs := s.inputs.tail, tick := s.tick + 1 }

/-- The end of a tick that began in RUNNING: the countdown, unless the tick faulted (40 R99, R101). -/
def State.endTick (s : State) : State :=
  if s.run = .faulted then s.nextInput else s.countDown.nextInput

/-- A tick in HALTED or FAULTED: no state of the block changes and nothing is issued (40 R91). -/
def State.gatedTick (s : State) : State := (s.setOut .idle).nextInput

/-- The fault of the fetch stage: the recorded word is 0 (40 R92). -/
def State.fetchFault (s : State) (r : Raise) : State := s.takeFault r 0#16

/-- The fault of the decode stage (40 R93, 60 R202). -/
def State.decodeFault (s : State) (w : Word) : State := s.takeFault ⟨.decodeError, 0#16⟩ w

/-- A word stored at `pc`, its high byte first (20_memory R52), where the fetch of the next step reads it; where no
fetch is in range (`pc > 4094`, R92) there is no place for it and nothing is stored. -/
def State.storeAtPc (s : State) (w : Word) : State :=
  match s.memWrite s.pc [highByte w, lowByte w] with
  | .ok t => t
  | .error _ => s

end Sys2Proof.Machine
end

