-- ==== Sys2Proof/Machine/Step.lean ====
section
/-! DEFINITION. The one step of the machine, `Tick` (40_engine_cycle R90). -/

namespace Sys2Proof.Machine

/-- One tick: the gate (R91), fetch (R92), decode (R93), execute with the sequencer (R94, R97), countdown (R99). -/
def step (s : State) : Host.Outcome State Fault Refusal :=
  match s.run with
  | .halted => .next s.gatedTick
  | .faulted => .next s.gatedTick
  | .running =>
    match s.fetch with
    | .error r => .next (s.fetchFault r).endTick
    | .ok w =>
      match decode w with
      | .error _ => .next (s.decodeFault w).endTick
      | .ok i =>
        match exec i s with
        | .next s' => .next s'.endTick
        | .fault f => .fault f
        | .refused r => .refused r

/-- The state with an instruction word stored where the next step fetches: the two bytes at `pc` (log 23). Nothing
else changes; in particular a halted machine stays halted. -/
def State.withFetchWord (s : State) (nbits w : Nat) : State :=
  s.storeAtPc (BitVec.ofNat 16 (w % 2 ^ nbits))

end Sys2Proof.Machine
end

