-- ==== Sys2Proof/Machine/Ports.lean ====
section
/-! DEFINITION. The boundary of the block (00_scope R11 to R16): the status outputs, reset, the loader port and the
ROM load (70_reset R230, R236), and the tick with its inputs. -/

namespace Sys2Proof.Machine

/-- `run_state` (10_state R33): RUNNING = 0, HALTED = 1, FAULTED = 2. -/
def RunState.code : RunState → BitVec 2
  | .running => 0#2
  | .halted => 1#2
  | .faulted => 2#2

/-- The cause codes of 60_exceptions R201. -/
def Fault.code : Fault → BitVec 3
  | .decodeError => 1#3
  | .stackUnderflow => 2#3
  | .stackOverflow => 3#3
  | .memoryOutOfRange => 4#3

/-- The status outputs, driven continuously from state (00_scope R16). -/
structure StatusOut where
  runState : BitVec 2
  faultCause : BitVec 3
  faultPc : Word
  faultWord : Word
  faultAddr : Word
  dtValue : Byte
  stValue : Byte
  deriving DecidableEq, Repr

/-- The status outputs of a state. With no fault the cause code is 0 (10_state R34); the other three fields, on which
the spec is silent then, are 0 (DESIGN CHOICE, log 29). -/
def State.status (s : State) : StatusOut :=
  match s.fault with
  | none => ⟨s.run.code, 0#3, 0#16, 0#16, 0#16, s.dt, s.st⟩
  | some r => ⟨s.run.code, r.cause.code, r.pc, r.word, r.addr, s.dt, s.st⟩

/-- One write of the loader port (00_scope R13): `load_data` at `mem[load_addr]`. -/
def State.loadByte (s : State) (addr : Addr12) (data : Byte) : State :=
  s.setMem (s.mem.write addr.toNat data)

/-- The launch state of a ROM image (70_reset R236): the reset state with the image from 0x200 up. An image longer than
3584 bytes is refused by the loader and the machine does not start (60_exceptions R222). -/
def State.launch (rom : List Byte) : Option State :=
  if rom.length ≤ Config.romMax then
    some (State.reset.setMem (State.reset.mem.writeBytes Config.progBase rom))
  else none

/-- `Tick(s, in)` (40_engine_cycle R90): one tick with the given inputs. -/
def State.tickWith (s : State) (inp : TickIn) : Host.Outcome State Fault Refusal :=
  step { s with inputs := [inp] }

/-- What the outside does to the block (00_scope R12, R13). The external stop (70_reset R240) is the end of the
events. -/
inductive PortEvent where
  | reset
  | load (addr : Addr12) (data : Byte)
  | tick (inp : TickIn)
  deriving DecidableEq, Repr

/-- The state after an event, or `none` where the spec has no such event: the loader writes only before the first tick
and only at addresses 0x200 to 0xFFF (00_scope R13; log 28). -/
def State.drive (s : State) : PortEvent → Option State
  | .reset => some State.reset
  | .load addr data =>
    if s.tick = 0 ∧ Config.progBase ≤ addr.toNat then some (s.loadByte addr data) else none
  | .tick inp =>
    match s.tickWith inp with
    | .next t => some t
    | .fault _ => none
    | .refused _ => none

end Sys2Proof.Machine
end

