-- ==== Sys2Proof/Safety.lean ====
section
/-! DEFINITION. What counts as a safe state, the invariant of the machine, and the words the statements use for
"unchanged". -/

namespace Sys2Proof.Machine

/-- "FAULTED is never a good final state" (60_exceptions R200). -/
abbrev State.Safe (s : State) : Prop := s.run ≠ .faulted

/-- "HALTED is the good end" (40_engine_cycle R103). -/
abbrev State.GoodEnd (s : State) : Prop := s.run = .halted

/-- A display command as the block issues it (00_scope R15): origin already reduced, at most 15 rows. -/
def DispCmd.Bounded : DispCmd → Prop
  | .none => True
  | .clear => True
  | .draw x y rows => x.toNat < Config.displayW ∧ y.toNat < Config.displayH ∧ rows.length ≤ 15

/-- The invariant that every step keeps. -/
structure State.Inv (s : State) : Prop where
  /-- The memory is in canonical form, inside addresses 0 to 4095 (20_memory R50). -/
  memory : s.mem.wf = true
  /-- "the largest value any rule can then write to pc is 0x10FE" (10_state R28). -/
  pcBound : s.pc.toNat ≤ 0x10FE
  /-- "A saved value is the address of the 2NNN that pushed it, always in 0 to 4094" (10_state R29). -/
  saved : ∀ k : Fin 16, k.val < s.sp.val → (s.stack[k.val]).toNat ≤ 4094
  /-- `fault` "is `none` while run is RUNNING or HALTED" (10_state R34), and a record in FAULTED (60 R206). -/
  record : s.fault.isSome = true ↔ s.run = .faulted
  /-- "In FAULTED, pc is the address of the faulting instruction" (40_engine_cycle R103), which the record holds. -/
  recordPc : ∀ r, s.fault = some r → r.pc = s.pc
  /-- The display command is bounded (00_scope R15). -/
  command : s.out.disp.Bounded
  /-- A key wait is no halt and no fault, and it issues no command (40_engine_cycle R98, R90). -/
  waiting : s.out.keyWait = true → s.run = .running ∧ s.out.disp = .none

/-- Every V register but the listed ones is unchanged. -/
def SameRegsBut (xs : List Reg) (s t : State) : Prop := ∀ k : Reg, k ∉ xs → t.reg k = s.reg k

/-- Every byte of memory is unchanged. -/
def SameMem (s t : State) : Prop := ∀ a : Nat, t.byte a = s.byte a

/-- Every byte of memory outside the `n` bytes from `a` is unchanged. -/
def SameMemOutside (a n : Nat) (s t : State) : Prop := ∀ b : Nat, b < a ∨ a + n ≤ b → t.byte b = s.byte b

/-- The call stack is unchanged: its depth and its slots. -/
def SameStack (s t : State) : Prop := t.sp = s.sp ∧ t.stack = s.stack

/-- Both timers are unchanged. -/
def SameTimers (s t : State) : Prop := t.dt = s.dt ∧ t.st = s.st

/-- The model's own input fields are unchanged. -/
def SameInputs (s t : State) : Prop := t.inputs = s.inputs ∧ t.tick = s.tick

/-- `I`, the call stack, the fault record and the inputs are unchanged, and so are both timers. -/
def SameSpecials (s t : State) : Prop :=
  t.I = s.I ∧ SameStack s t ∧ SameTimers s t ∧ t.fault = s.fault ∧ SameInputs s t

/-- The special registers and memory are unchanged: what an instruction that works on V registers and `pc` only leaves
alone. -/
def SameOutsideRegs (s t : State) : Prop := SameSpecials s t ∧ SameMem s t

/-- The instruction falls through: `pc` advances by 2 and `run` stays as it was (NEXT, 40_engine_cycle R96). -/
def FallsThrough (s t : State) : Prop := t.pc = s.pc + 2#16 ∧ t.run = s.run

/-- The tick issues no display command and does not wait for a key. -/
def IssuesNothing (t : State) : Prop := t.out.disp = .none ∧ t.out.keyWait = false

/-- A fault is taken with the given record and nothing else of the block changes (60_exceptions R206, R207). -/
def FaultsWith (r : FaultRecord) (s t : State) : Prop :=
  t.run = .faulted ∧ t.fault = some r ∧ t.pc = s.pc ∧ SameRegsBut [] s t ∧ t.I = s.I ∧ SameStack s t ∧
    SameTimers s t ∧ SameMem s t ∧ IssuesNothing t

/-- The state of the block (10_state R20), without the model's own fields, is the same. -/
def SameBlock (s t : State) : Prop :=
  t.v = s.v ∧ t.I = s.I ∧ t.pc = s.pc ∧ t.stack = s.stack ∧ t.sp = s.sp ∧ t.dt = s.dt ∧ t.st = s.st ∧ t.run = s.run ∧
    t.fault = s.fault ∧ t.mem = s.mem

end Sys2Proof.Machine
end

