-- ==== Sys2Proof/Certificates/Slice0/Obligations.lean ====
section
/-! DEFINITION. The statements for the provers, in the order of spec/. A docstring names the rule a statement
formalises; where it rests on a decision of spec/92_eei_decisions.md or on a choice of the model, it says so. -/

open Sys2Proof Sys2Proof.Machine

/-! ### Reset, launch, ports -/

/-- 70_reset R230 (decisions D22 for `I`, D2 for FAULTED): every reset value the rule gives (the stack slots, which it
leaves unspecified, are not named), reset from any state, and no tick leaves HALTED or FAULTED. -/
def Obligations.ResetGivesTheResetValues : Prop :=
  (∀ k : Reg, State.reset.reg k = 0#8) ∧ State.reset.I = 0#16 ∧ State.reset.pc = 0x200#16 ∧ State.reset.sp = 0 ∧
  State.reset.dt = 0#8 ∧ State.reset.st = 0#8 ∧ State.reset.run = .running ∧ State.reset.fault = none ∧
  (∀ a : Nat, State.reset.byte a = 0#8) ∧ (∀ s : State, s.drive .reset = some State.reset) ∧
  ∀ (s t : State) (inp : TickIn), s.run ≠ .running → s.tickWith inp = .next t → t.run = s.run

/-- 70_reset R236: the launch state is the reset state with the image from 0x200 up and zeros elsewhere; a longer image
is no launch; an empty image halts at 0x200 on the first tick (decision D9 for the `pc` of the halt). All fields but
memory are those of `State.reset`, the stack slots of log 5 among them. -/
def Obligations.LaunchLoadsTheRomFrom0x200 : Prop :=
  (∀ rom : List Byte, rom.length ≤ 3584 →
    ∃ s : State, State.launch rom = some s ∧ { s with mem := [] } = State.reset ∧
      ∀ a : Nat, s.byte a = if 0x200 ≤ a ∧ a < 0x200 + rom.length then rom.getD (a - 0x200) 0#8 else 0#8) ∧
  (∀ rom : List Byte, 3584 < rom.length → State.launch rom = none) ∧
  ∃ s t : State, State.launch [] = some s ∧ step s = .next t ∧ t.run = .halted ∧ t.pc = 0x200#16

/-- 00_scope R13 (decision D27): the loader port writes one byte, before the first tick and from 0x200 up, and is no
event otherwise. "Before the first tick" is the model's tick counter at 0 (log 28). -/
def Obligations.LoaderPortStoresOneByteBeforeTheFirstTick : Prop :=
  ∀ (s : State) (addr : Addr12) (data : Byte),
    (s.tick = 0 → 0x200 ≤ addr.toNat →
      ∃ t : State, s.drive (.load addr data) = some t ∧ t.byte addr.toNat = data ∧
        SameMemOutside addr.toNat 1 s t ∧ { t with mem := s.mem } = s) ∧
    (s.tick ≠ 0 ∨ addr.toNat < 0x200 → s.drive (.load addr data) = none)

/-- 00_scope R16, 10_state R33 and R34, 60_exceptions R201 (decisions D2, D3): the status outputs. -/
def Obligations.StatusOutputsShowRunFaultAndTimers : Prop :=
  ∀ s : State,
    s.status.dtValue = s.dt ∧ s.status.stValue = s.st ∧
    s.status.runState = (match s.run with | .running => 0#2 | .halted => 1#2 | .faulted => 2#2) ∧
    (s.fault = none → s.status.faultCause = 0#3) ∧
    ∀ r : FaultRecord, s.fault = some r →
      s.status.faultPc = r.pc ∧ s.status.faultWord = r.word ∧ s.status.faultAddr = r.addr ∧
      s.status.faultCause =
        (match r.cause with
        | .decodeError => 1#3 | .stackUnderflow => 2#3 | .stackOverflow => 3#3 | .memoryOutOfRange => 4#3)

/-! ### Decoding -/

/-- 30_encoding R70 to R79: decoding the word of a well-formed instruction gives the instruction back, and so do its two
bytes in memory order, whatever follows them. -/
def Obligations.DecodeOfEncodeGivesTheInstructionBack : Prop :=
  ∀ i : Instr, i.wf = true →
    decode (encode i) = .ok i ∧ ∀ rest : List Byte, decodeBytes (encodeBytes i ++ rest) = .ok (i, rest)

/-- 30_encoding R74: a word has one meaning; encoding the instruction it decodes to gives the word back, and the
instruction is well-formed. -/
def Obligations.EncodeOfDecodeGivesTheWordBack : Prop :=
  ∀ (w : Word) (i : Instr), decode w = .ok i → i.wf = true ∧ encode i = w

/-- 30_encoding R79: an instruction is selected when `w & mask = match`, the test of 0NNN being made after the two exact
matches. -/
def Obligations.DecodeSelectsByMatchAndMask : Prop :=
  (∀ (w : Word) (i : Instr), decode w = .ok i → w &&& i.row.mask = i.row.bits) ∧
  ∀ (w : Word) (i : Instr), w &&& i.row.mask = i.row.bits →
    (i.row.bits = 0x0000#16 → w ≠ 0x00E0#16 ∧ w ≠ 0x00EE#16) →
    ∃ j : Instr, decode w = .ok j ∧ j.row = i.row

/-- The illegal words as the table of 30_encoding R80 lists them, by group digit and low nibble or low byte. -/
def IllegalWord (w : Word) : Prop :=
  let op := w.toNat / 4096
  let n := w.toNat % 16
  let nn := w.toNat % 256
  (op = 5 ∧ n ≠ 0) ∨ (op = 8 ∧ n ∈ [0x8, 0x9, 0xA, 0xB, 0xC, 0xD, 0xF]) ∨ (op = 9 ∧ n ≠ 0) ∨
    (op = 0xE ∧ nn ∉ [0x9E, 0xA1]) ∨ (op = 0xF ∧ nn ∉ [0x07, 0x0A, 0x15, 0x18, 0x1E, 0x29, 0x33, 0x55, 0x65])

/-- 30_encoding R80 (derived there from R74; strictness is decision D11): the words without an instruction are exactly
the table's. -/
def Obligations.IllegalWordsAreExactlyTheTables : Prop :=
  ∀ w : Word, (decode w = .error (.illegalWord w) ↔ IllegalWord w) ∧ ((∃ r, decode w = .error r) ↔ IllegalWord w)

/-- 30_encoding R71, R75, R79 on words written out bit by bit: one of each format. -/
def Obligations.WordsWrittenOutDecode : Prop :=
  decode 0b0000000011100000#16 = .ok .cls ∧
  decode 0b0000000011101110#16 = .ok .ret ∧
  decode 0b0000000000000000#16 = .ok (.sys 0#12) ∧
  decode 0b0001101010111100#16 = .ok (.jp 0xABC#12) ∧
  decode 0b0011101001000010#16 = .ok (.seImm 10 0x42#8) ∧
  decode 0b1000000100100100#16 = .ok (.addReg 1 2) ∧
  decode 0b1101000100101010#16 = .ok (.drw 1 2 10) ∧
  decode 0b1110010110011110#16 = .ok (.skp 5) ∧
  decode 0b1111001001100101#16 = .ok (.loadRegs 2)

/-! ### The engine cycle -/

/-- 20_memory R52: the fetched word is `mem[pc] * 256 + mem[pc + 1]`, in every state whose `pc` admits a fetch. -/
def Obligations.FetchIsBigEndian : Prop :=
  ∀ s : State, s.pc.toNat ≤ 4094 →
    ∃ w : Word, s.fetch = .ok w ∧
      w.toNat = (s.byte s.pc.toNat).toNat * 256 + (s.byte (s.pc.toNat + 1)).toNat

/-- 40_engine_cycle R90: when the two bytes at `pc` decode to `i`, the step is `exec i` and then the end of the tick:
both timers count down unless the tick faulted (decisions D5, D6), one input record is used (log 1), and nothing else
changes. -/
def Obligations.StepRunsTheDecodedInstruction : Prop :=
  ∀ (s t : State) (i : Instr), s.run = .running → s.pc.toNat ≤ 4094 →
    decode (wordOfBytes (s.byte s.pc.toNat) (s.byte (s.pc.toNat + 1))) = .ok i → exec i s = .next t →
    step s = .next
      { t with
        dt := if t.run = .faulted then t.dt else BitVec.ofNat 8 (t.dt.toNat - 1),
        st := if t.run = .faulted then t.st else BitVec.ofNat 8 (t.st.toNat - 1),
        inputs := t.inputs.tail,
        tick := t.tick + 1 }

/-- 40_engine_cycle R91, 60_exceptions R211 and R217 (decision D6): any number of ticks in HALTED or FAULTED changes no
state of the block, timers included, and issues nothing. -/
def Obligations.HaltedAndFaultedStatesAreFrozen : Prop :=
  ∀ (n : Nat) (s : State), s.run ≠ .running →
    ∃ t : State, Host.Core.run Sys2Proof.core n s = .next t ∧ SameBlock s t ∧ (0 < n → IssuesNothing t)

/-- 40_engine_cycle R90, "given `s` and `in` it has exactly one result": every state has a next state. That a fault is a
next state with `run` FAULTED is the model's reading (log 3). -/
def Obligations.EveryStateHasANextState : Prop :=
  ∀ s : State, ∃ t : State, step s = .next t

/-- 00_scope R11, R14: the inputs of a tick are the next given record, or else free values, and every tick uses one
record. The fields that hold them are the model's choice (log 1). -/
def Obligations.EveryTickUsesOneInputRecord : Prop :=
  (∀ (s : State) (inp : TickIn) (rest : List TickIn), s.inputs = inp :: rest → s.input = inp) ∧
  (∀ s : State, s.inputs = [] → s.input = ⟨Config.freeKeyDown s.tick, Config.freeKeyEvent s.tick, Config.freeRnd s.tick⟩) ∧
  ∀ s t : State, step s = .next t → t.inputs = s.inputs.tail ∧ t.tick = s.tick + 1

/-- 40_engine_cycle R92 (decision D24): a fetch above 4094 faults, with word 0 and the first address out of range. What
else the entry leaves alone, memory and timers included, is decision D4 (log 16). -/
def Obligations.FetchAbove4094Faults : Prop :=
  ∀ s : State, s.run = .running → 4094 < s.pc.toNat →
    ∃ t : State, step s = .next t ∧
      FaultsWith ⟨.memoryOutOfRange, s.pc, 0#16, BitVec.ofNat 16 (max s.pc.toNat 4096)⟩ s t

/-- 60_exceptions R202, 40_engine_cycle R93: a fetched illegal word faults with the word and the address it was fetched
from; and "It is raised only for a word that is actually fetched": a tick that ends with a DecodeError fetched an illegal
word. What else the entry leaves alone is decision D4 (log 16). -/
def Obligations.DecodeErrorExactlyForFetchedIllegalWords : Prop :=
  (∀ s : State, s.run = .running → s.pc.toNat ≤ 4094 →
    IllegalWord (wordOfBytes (s.byte s.pc.toNat) (s.byte (s.pc.toNat + 1))) →
    ∃ t : State, step s = .next t ∧
      FaultsWith ⟨.decodeError, s.pc, wordOfBytes (s.byte s.pc.toNat) (s.byte (s.pc.toNat + 1)), 0#16⟩ s t) ∧
  ∀ (s t : State) (r : FaultRecord), s.run = .running → step s = .next t → t.run = .faulted → t.fault = some r →
    r.cause = .decodeError →
    s.pc.toNat ≤ 4094 ∧ IllegalWord (wordOfBytes (s.byte s.pc.toNat) (s.byte (s.pc.toNat + 1)))

/-- 60_exceptions R206 (decisions D2, D32): whatever faults once the word is fetched, the record holds that word and the
address of the instruction, and `pc` stays there. -/
def Obligations.FaultRecordHoldsTheFetchedWord : Prop :=
  ∀ (s t : State) (w : Word), s.run = .running → s.fetch = .ok w → step s = .next t → t.run = .faulted →
    t.pc = s.pc ∧ ∃ r : FaultRecord, t.fault = some r ∧ r.word = w ∧ r.pc = s.pc

/-- The conditions under which the execute stage of an instruction raises its fault, with the cause (60_exceptions R201,
R208; 20_memory R51). -/
def ExecuteFault (i : Instr) (s : State) : Option Fault :=
  match i with
  | .ret => if s.sp = 0 then some .stackUnderflow else none
  | .call _ => if s.sp = 16 then some .stackOverflow else none
  | .drw _ _ n => if 1 ≤ n.val ∧ 4095 < s.I.toNat + n.val - 1 then some .memoryOutOfRange else none
  | .storeBcd _ => if 4093 < s.I.toNat then some .memoryOutOfRange else none
  | .storeRegs x => if 4095 < s.I.toNat + x.val then some .memoryOutOfRange else none
  | .loadRegs x => if 4095 < s.I.toNat + x.val then some .memoryOutOfRange else none
  | .cls | .sys _ | .jp _ | .seImm _ _ | .sneImm _ _ | .seReg _ _ | .ldImm _ _ | .addImm _ _ | .ldReg _ _
  | .orReg _ _ | .andReg _ _ | .xorReg _ _ | .addReg _ _ | .subReg _ _ | .shr _ _ | .subnReg _ _ | .shl _ _
  | .sneReg _ _ | .ldI _ | .jpV0 _ | .rnd _ _ | .skp _ | .sknp _ | .ldFromDt _ | .waitKey _ | .ldDt _ | .ldSt _
  | .addI _ | .ldGlyph _ => none

/-- 60_exceptions R208 and 20_memory R51 (decisions D4, D10, D30): over all instructions, the execute stage faults exactly
under these conditions, with the cause each names; all other instructions never fault. -/
def Obligations.ExecuteFaultsExactlyWhenListed : Prop :=
  ∀ (i : Instr) (s t : State), s.run ≠ .faulted → exec i s = .next t →
    (t.run = .faulted ↔ ExecuteFault i s ≠ none) ∧
    ∀ c : Fault, ExecuteFault i s = some c → ∃ r : FaultRecord, t.fault = some r ∧ r.cause = c

/-- The target of an instruction that redirects `pc`, where it has one (40_engine_cycle R96, R98). -/
def RedirectTarget (i : Instr) (s : State) : Option Word :=
  match i with
  | .jp nnn => some (BitVec.ofNat 16 nnn.toNat)
  | .call nnn => if s.sp = 16 then none else some (BitVec.ofNat 16 nnn.toNat)
  | .jpV0 nnn => some (BitVec.ofNat 16 (nnn.toNat + (s.reg 0).toNat))
  | .ret => if s.sp = 0 then none else some (s.top + 2#16)
  | .cls | .sys _ | .seImm _ _ | .sneImm _ _ | .seReg _ _ | .ldImm _ _ | .addImm _ _ | .ldReg _ _ | .orReg _ _
  | .andReg _ _ | .xorReg _ _ | .addReg _ _ | .subReg _ _ | .shr _ _ | .subnReg _ _ | .shl _ _ | .sneReg _ _
  | .ldI _ | .rnd _ _ | .drw _ _ _ | .skp _ | .sknp _ | .ldFromDt _ | .waitKey _ | .ldDt _ | .ldSt _ | .addI _
  | .ldGlyph _ | .storeBcd _ | .storeRegs _ | .loadRegs _ => none

/-- 60_exceptions R210, 40_engine_cycle R98 (decisions D7, D8, D9): over all instructions, the machine halts exactly on a
0NNN and on a jump, call, offset jump or return to the instruction's own address. A waiting FX0A does not halt. -/
def Obligations.HaltsExactlyOnShutdownAndNonProgress : Prop :=
  ∀ (i : Instr) (s t : State), s.run = .running → exec i s = .next t →
    (t.run = .halted ↔ (∃ nnn, i = .sys nnn) ∨ RedirectTarget i s = some s.pc)

/-! ### Control flow -/

/-- 41_control_flow R110 (decision D9): 0NNN holds `pc`, halts, and writes nothing else. -/
def Obligations.SysHaltsInPlace : Prop :=
  ∀ (nnn : Addr12) (s : State), ∃ t : State, exec (.sys nnn) s = .next t ∧
    t.pc = s.pc ∧ t.run = .halted ∧ SameRegsBut [] s t ∧ SameOutsideRegs s t ∧ IssuesNothing t

/-- 41_control_flow R112: 1NNN sets `pc` to NNN, and halts when that is its own address. -/
def Obligations.JumpSetsPcToNnn : Prop :=
  ∀ (nnn : Addr12) (s : State), ∃ t : State, exec (.jp nnn) s = .next t ∧
    t.pc.toNat = nnn.toNat ∧ t.run = (if s.pc.toNat = nnn.toNat then .halted else s.run) ∧
    SameRegsBut [] s t ∧ SameOutsideRegs s t ∧ IssuesNothing t

/-- 41_control_flow R113 (D10 for the bound): with a free slot, 2NNN pushes its own address, then behaves as 1NNN. -/
def Obligations.CallPushesItsOwnAddress : Prop :=
  ∀ (nnn : Addr12) (s : State), s.sp.val < 16 → ∃ t : State, exec (.call nnn) s = .next t ∧
    t.sp.val = s.sp.val + 1 ∧ t.top = s.pc ∧ (∀ k : Fin 16, k.val ≠ s.sp.val → t.stack[k.val] = s.stack[k.val]) ∧
    t.pc.toNat = nnn.toNat ∧ t.run = (if s.pc.toNat = nnn.toNat then .halted else s.run) ∧
    SameRegsBut [] s t ∧ t.I = s.I ∧ SameTimers s t ∧ t.fault = s.fault ∧ SameMem s t ∧ SameInputs s t ∧ IssuesNothing t

/-- 41_control_flow R111 (decision D7): with a saved address, 00EE pops it and sets `pc` two bytes after it. -/
def Obligations.ReturnLandsTwoAfterThePoppedAddress : Prop :=
  ∀ s : State, s.sp ≠ 0 → ∃ t : State, exec .ret s = .next t ∧
    t.pc = s.top + 2#16 ∧ t.sp.val = s.sp.val - 1 ∧ t.stack = s.stack ∧
    t.run = (if s.top + 2#16 = s.pc then .halted else s.run) ∧
    SameRegsBut [] s t ∧ t.I = s.I ∧ SameTimers s t ∧ t.fault = s.fault ∧ SameMem s t ∧ SameInputs s t ∧ IssuesNothing t

/-- 41_control_flow R114 (decision D31): BNNN sets `pc` to NNN + V[0], with no cut to 12 bits. -/
def Obligations.OffsetJumpAddsV0 : Prop :=
  ∀ (nnn : Addr12) (s : State), ∃ t : State, exec (.jpV0 nnn) s = .next t ∧
    t.pc.toNat = nnn.toNat + (s.reg 0).toNat ∧
    t.run = (if s.pc.toNat = nnn.toNat + (s.reg 0).toNat then .halted else s.run) ∧
    SameRegsBut [] s t ∧ SameOutsideRegs s t ∧ IssuesNothing t

/-- 41_control_flow R115: after a call, in any state whose stack is again as the call left it, a return lands on the
instruction after the call, with the depth and the slots below it as before. -/
def Obligations.CallThenReturnResumesAfterTheCall : Prop :=
  ∀ (nnn : Addr12) (s t m u : State), s.sp.val < 16 → exec (.call nnn) s = .next t → SameStack t m →
    exec .ret m = .next u →
    u.pc = s.pc + 2#16 ∧ u.sp = s.sp ∧ ∀ k : Fin 16, k.val < s.sp.val → u.stack[k.val] = s.stack[k.val]

/-- 60_exceptions R203, R204 (decision D10 for the second): 00EE on the empty stack and 2NNN on the full stack fault. What
else the entry leaves alone is decision D4 (log 16). -/
def Obligations.StackBoundsFault : Prop :=
  (∀ s : State, s.sp = 0 → ∃ t : State, exec .ret s = .next t ∧
    FaultsWith ⟨.stackUnderflow, s.pc, 0x00EE#16, 0#16⟩ s t) ∧
  ∀ (nnn : Addr12) (s : State), s.sp.val = 16 → ∃ t : State, exec (.call nnn) s = .next t ∧
    FaultsWith ⟨.stackOverflow, s.pc, BitVec.ofNat 16 (0x2000 + nnn.toNat), 0#16⟩ s t

/-! ### Skips -/

/-- `pc` advances by 4 if the condition holds and by 2 otherwise, and nothing else changes (42_skips). -/
def SkipsIff (c : Prop) (s t : State) : Prop :=
  (c → t.pc = s.pc + 4#16) ∧ (¬ c → t.pc = s.pc + 2#16) ∧ t.run = s.run ∧ SameRegsBut [] s t ∧ SameOutsideRegs s t ∧
    IssuesNothing t

/-- 42_skips R120 to R123: the four skips on registers. -/
def Obligations.RegisterSkipsAddTwoMore : Prop :=
  ∀ (x y : Reg) (nn : Byte) (s : State),
    (∃ t : State, exec (.seImm x nn) s = .next t ∧ SkipsIff (s.reg x = nn) s t) ∧
    (∃ t : State, exec (.sneImm x nn) s = .next t ∧ SkipsIff (s.reg x ≠ nn) s t) ∧
    (∃ t : State, exec (.seReg x y) s = .next t ∧ SkipsIff (s.reg x = s.reg y) s t) ∧
    (∃ t : State, exec (.sneReg x y) s = .next t ∧ SkipsIff (s.reg x ≠ s.reg y) s t)

/-! ### Load immediate, add immediate, random -/

/-- The instruction writes the listed V registers at most, falls through, and changes and issues nothing else. -/
def WritesRegsOnly (xs : List Reg) (s t : State) : Prop :=
  SameRegsBut xs s t ∧ FallsThrough s t ∧ SameOutsideRegs s t ∧ IssuesNothing t

/-- 43_load_add_random R130: 6XNN. -/
def Obligations.LoadImmediateSetsVx : Prop :=
  ∀ (x : Reg) (nn : Byte) (s : State), ∃ t : State, exec (.ldImm x nn) s = .next t ∧
    t.reg x = nn ∧ WritesRegsOnly [x] s t

/-- 43_load_add_random R131 (decision D15 for VF): 7XNN adds modulo 256 and writes no flag, unless V[x] is VF. -/
def Obligations.AddImmediateWrapsWithoutAFlag : Prop :=
  ∀ (x : Reg) (nn : Byte) (s : State), ∃ t : State, exec (.addImm x nn) s = .next t ∧
    (t.reg x).toNat = ((s.reg x).toNat + nn.toNat) % 256 ∧ WritesRegsOnly [x] s t

/-- 43_load_add_random R132 (decision D21): CXNN is the tick's random byte AND NN, for every value of the byte. -/
def Obligations.RandomIsMaskedByNn : Prop :=
  ∀ (x : Reg) (nn : Byte) (s : State), ∃ t : State, exec (.rnd x nn) s = .next t ∧
    t.reg x = s.input.rnd &&& nn ∧ t.reg x &&& ~~~ nn = 0#8 ∧ WritesRegsOnly [x] s t

/-! ### ALU -/

/-- 44_alu R141 to R144 (decision D15 for VF): assign, OR, AND, XOR, without a flag. -/
def Obligations.AssignAndLogicWriteVxOnly : Prop :=
  ∀ (x y : Reg) (s : State),
    (∃ t : State, exec (.ldReg x y) s = .next t ∧ t.reg x = s.reg y ∧ WritesRegsOnly [x] s t) ∧
    (∃ t : State, exec (.orReg x y) s = .next t ∧ t.reg x = s.reg x ||| s.reg y ∧ WritesRegsOnly [x] s t) ∧
    (∃ t : State, exec (.andReg x y) s = .next t ∧ t.reg x = s.reg x &&& s.reg y ∧ WritesRegsOnly [x] s t) ∧
    (∃ t : State, exec (.xorReg x y) s = .next t ∧ t.reg x = s.reg x ^^^ s.reg y ∧ WritesRegsOnly [x] s t)

/-- 44_alu R145: 8XY4; with x = 15 the sum stands in VF. -/
def Obligations.AddSetsCarryThenStoresTheSum : Prop :=
  ∀ (x y : Reg) (s : State), ∃ t : State, exec (.addReg x y) s = .next t ∧
    (t.reg x).toNat = ((s.reg x).toNat + (s.reg y).toNat) % 256 ∧
    (x ≠ 15 → t.reg 15 = if 255 < (s.reg x).toNat + (s.reg y).toNat then 1#8 else 0#8) ∧
    WritesRegsOnly [x, 15] s t

/-- 44_alu R146, R148 (decisions D13, D14): 8XY5 and 8XY7; VF = 1 iff no borrow, equal operands included; with x = 15 the
difference stands in VF. -/
def Obligations.SubtractionsSetNoBorrow : Prop :=
  ∀ (x y : Reg) (s : State),
    (∃ t : State, exec (.subReg x y) s = .next t ∧
      (t.reg x).toNat =
        (if (s.reg y).toNat ≤ (s.reg x).toNat then (s.reg x).toNat - (s.reg y).toNat
          else (s.reg x).toNat + 256 - (s.reg y).toNat) ∧
      (x ≠ 15 → t.reg 15 = if (s.reg y).toNat ≤ (s.reg x).toNat then 1#8 else 0#8) ∧
      WritesRegsOnly [x, 15] s t) ∧
    (∃ t : State, exec (.subnReg x y) s = .next t ∧
      (t.reg x).toNat =
        (if (s.reg x).toNat ≤ (s.reg y).toNat then (s.reg y).toNat - (s.reg x).toNat
          else (s.reg y).toNat + 256 - (s.reg x).toNat) ∧
      (x ≠ 15 → t.reg 15 = if (s.reg x).toNat ≤ (s.reg y).toNat then 1#8 else 0#8) ∧
      WritesRegsOnly [x, 15] s t)

/-- 44_alu R147, R149 (decisions D12, D13): 8XY6 and 8XYE shift V[x] in place, whatever y is; VF is the bit shifted out, as
0 or 1; with x = 15 the result stands in VF. -/
def Obligations.ShiftsMoveVxByOneAndEvictIntoVf : Prop :=
  ∀ (x y : Reg) (s : State),
    (∃ t : State, exec (.shr x y) s = .next t ∧
      (t.reg x).toNat = (s.reg x).toNat / 2 ∧ (x ≠ 15 → (t.reg 15).toNat = (s.reg x).toNat % 2) ∧
      WritesRegsOnly [x, 15] s t) ∧
    (∃ t : State, exec (.shl x y) s = .next t ∧
      (t.reg x).toNat = (s.reg x).toNat * 2 % 256 ∧ (x ≠ 15 → (t.reg 15).toNat = (s.reg x).toNat / 128) ∧
      WritesRegsOnly [x, 15] s t)

/-! ### Index register and memory -/

/-- The instruction writes `I` at most, falls through, and changes and issues nothing else. -/
def WritesIOnly (s t : State) : Prop :=
  SameRegsBut [] s t ∧ FallsThrough s t ∧ SameStack s t ∧ SameTimers s t ∧ t.fault = s.fault ∧ SameMem s t ∧
    SameInputs s t ∧ IssuesNothing t

/-- 45_index_memory R155: ANNN. -/
def Obligations.LoadIndexSetsIToNnn : Prop :=
  ∀ (nnn : Addr12) (s : State), ∃ t : State, exec (.ldI nnn) s = .next t ∧ t.I.toNat = nnn.toNat ∧ WritesIOnly s t

/-- 45_index_memory R156 (decisions D1, D15): FX1E adds modulo 65536 and writes no flag. -/
def Obligations.AddToIndexWrapsWithoutAFlag : Prop :=
  ∀ (x : Reg) (s : State), ∃ t : State, exec (.addI x) s = .next t ∧
    t.I.toNat = (s.I.toNat + (s.reg x).toNat) % 65536 ∧ WritesIOnly s t

/-- 45_index_memory R157 (decision D19 for base and stride): FX29 points `I` at the glyph slot of the low nibble. -/
def Obligations.GlyphAddressOfTheLowNibble : Prop :=
  ∀ (x : Reg) (s : State), ∃ t : State, exec (.ldGlyph x) s = .next t ∧
    t.I.toNat = Config.fontBase + Config.fontStride * ((s.reg x).toNat % 16) ∧ WritesIOnly s t

/-- The instruction writes memory at most, in the `n` bytes from `I`, falls through, and changes and issues nothing
else. -/
def StoresAtIOnly (n : Nat) (s t : State) : Prop :=
  SameMemOutside s.I.toNat n s t ∧ SameRegsBut [] s t ∧ FallsThrough s t ∧ SameSpecials s t ∧ IssuesNothing t

/-- 45_index_memory R159 (decision D30 for the bound): FX33 stores hundreds, tens, ones, which recombine to V[x]. -/
def Obligations.BcdStoresTheThreeDigits : Prop :=
  ∀ (x : Reg) (s : State), s.I.toNat ≤ 4093 → ∃ t : State, exec (.storeBcd x) s = .next t ∧
    (t.byte s.I.toNat).toNat = (s.reg x).toNat / 100 ∧
    (t.byte (s.I.toNat + 1)).toNat = (s.reg x).toNat / 10 % 10 ∧
    (t.byte (s.I.toNat + 2)).toNat = (s.reg x).toNat % 10 ∧
    (t.byte s.I.toNat).toNat * 100 + (t.byte (s.I.toNat + 1)).toNat * 10 + (t.byte (s.I.toNat + 2)).toNat =
      (s.reg x).toNat ∧
    StoresAtIOnly 3 s t

/-- 45_index_memory R160 (decision D30 for the bound): FX55 stores V[0] to V[x] at `I` and leaves `I` alone. -/
def Obligations.StoreRegistersFromI : Prop :=
  ∀ (x : Reg) (s : State), s.I.toNat + x.val ≤ 4095 → ∃ t : State, exec (.storeRegs x) s = .next t ∧
    (∀ k : Reg, k ≤ x → t.byte (s.I.toNat + k.val) = s.reg k) ∧ StoresAtIOnly (x.val + 1) s t

/-- 45_index_memory R161 (decision D30 for the bound): FX65 loads V[0] to V[x] from `I`; the registers above stay. -/
def Obligations.LoadRegistersFromI : Prop :=
  ∀ (x : Reg) (s : State), s.I.toNat + x.val ≤ 4095 → ∃ t : State, exec (.loadRegs x) s = .next t ∧
    (∀ k : Reg, k ≤ x → t.reg k = s.byte (s.I.toNat + k.val)) ∧ (∀ k : Reg, x < k → t.reg k = s.reg k) ∧
    FallsThrough s t ∧ SameOutsideRegs s t ∧ IssuesNothing t

/-- 45_index_memory R160 and R161 together: storing V[0..X], then any change that keeps `I` and memory, then loading
restores the values. -/
def Obligations.StoreThenLoadRestoresTheRegisters : Prop :=
  ∀ (x : Reg) (s t m u : State), s.I.toNat + x.val ≤ 4095 → exec (.storeRegs x) s = .next t → m.I = t.I → SameMem t m →
    exec (.loadRegs x) m = .next u → ∀ k : Reg, k ≤ x → u.reg k = s.reg k

/-- 20_memory R51, 60_exceptions R205 (decisions D4, D30, D32): the four instructions that access memory through `I` fault
when their range passes 4095, with the first address out of range, and move no byte. -/
def Obligations.AccessPast4095Faults : Prop :=
  ∀ (x y : Reg) (n : Count) (s : State),
    (1 ≤ n.val → 4095 < s.I.toNat + n.val - 1 → ∃ t : State, exec (.drw x y n) s = .next t ∧
      FaultsWith ⟨.memoryOutOfRange, s.pc, encode (.drw x y n), BitVec.ofNat 16 (max s.I.toNat 4096)⟩ s t) ∧
    (4093 < s.I.toNat → ∃ t : State, exec (.storeBcd x) s = .next t ∧
      FaultsWith ⟨.memoryOutOfRange, s.pc, encode (.storeBcd x), BitVec.ofNat 16 (max s.I.toNat 4096)⟩ s t) ∧
    (4095 < s.I.toNat + x.val → ∃ t : State, exec (.storeRegs x) s = .next t ∧
      FaultsWith ⟨.memoryOutOfRange, s.pc, encode (.storeRegs x), BitVec.ofNat 16 (max s.I.toNat 4096)⟩ s t) ∧
    (4095 < s.I.toNat + x.val → ∃ t : State, exec (.loadRegs x) s = .next t ∧
      FaultsWith ⟨.memoryOutOfRange, s.pc, encode (.loadRegs x), BitVec.ofNat 16 (max s.I.toNat 4096)⟩ s t)

/-- 20_memory R62: a fetch at two bytes that FX55 stored reads them, high byte first. -/
def Obligations.FetchSeesTheStoredBytes : Prop :=
  ∀ (x k : Reg) (s t : State), s.I.toNat + x.val ≤ 4095 → k < x → exec (.storeRegs x) s = .next t →
    State.fetch { t with pc := s.I + BitVec.ofNat 16 k.val } = .ok (wordOfBytes (s.reg k) (s.reg (k + 1)))

/-- 10_state R35 in the model's representation (log 22): two memories in canonical form that read alike are equal. -/
def Obligations.CanonicalMemoriesThatReadAlikeAreEqual : Prop :=
  ∀ m m' : Memory, m.wf = true → m'.wf = true → (∀ a : Nat, m.read a = m'.read a) → m = m'

/-! ### Display -/

/-- 46_display R170: 00E0 issues Clear and writes no state but `pc`. -/
def Obligations.ClearIssuesTheClearCommand : Prop :=
  ∀ s : State, ∃ t : State, exec .cls s = .next t ∧
    t.out.disp = .clear ∧ t.out.keyWait = false ∧ SameRegsBut [] s t ∧ FallsThrough s t ∧ SameOutsideRegs s t

/-- 46_display R171, R172 (decisions D16, D17, D18): DXYN issues Draw with the origin reduced and the bytes at `I`, writes
no state but `pc`, VF included, and with n = 0 completes whatever `I` holds. -/
def Obligations.DrawIssuesTheSpriteBytes : Prop :=
  ∀ (x y : Reg) (n : Count) (s : State), n.val = 0 ∨ s.I.toNat + n.val - 1 ≤ 4095 →
    ∃ t : State, exec (.drw x y n) s = .next t ∧
      (∃ (px py : Byte) (rows : List Byte), t.out.disp = .draw px py rows ∧
        px.toNat = (s.reg x).toNat % Config.displayW ∧ py.toNat = (s.reg y).toNat % Config.displayH ∧
        rows.length = n.val ∧ ∀ k : Nat, k < n.val → rows[k]? = some (s.byte (s.I.toNat + k))) ∧
      t.out.keyWait = false ∧ SameRegsBut [] s t ∧ FallsThrough s t ∧ SameOutsideRegs s t

/-! ### Keypad and timers -/

/-- 47_keypad_timers R181, R182 (decision D20 for the unmasked identifier): the key skips ask the tick's `key_down` with V[x], for every answer. -/
def Obligations.KeySkipsAskTheKeyNamedByVx : Prop :=
  ∀ (x : Reg) (s : State),
    (∃ t : State, exec (.skp x) s = .next t ∧ SkipsIff (s.input.keyDown.getLsbD (s.reg x).toNat = true) s t) ∧
    (∃ t : State, exec (.sknp x) s = .next t ∧ SkipsIff (s.input.keyDown.getLsbD (s.reg x).toNat = false) s t)

/-- 47_keypad_timers R183 (decision D5 for the order): FX07 reads `dt` before the tick's countdown, which then applies. -/
def Obligations.ReadTimerSeesTheValueBeforeTheCountdown : Prop :=
  ∀ (x : Reg) (s : State), s.run = .running → ∃ t : State, exec (.ldFromDt x) s = .next t ∧
    t.reg x = s.dt ∧ WritesRegsOnly [x] s t ∧ t.endTick.dt.toNat = s.dt.toNat - 1

/-- 47_keypad_timers R184 (decisions D8, D20): FX0A holds and signals the wait while no key is reported, and then stores
the whole byte and falls through. -/
def Obligations.KeyWaitHoldsUntilAKeyIsReported : Prop :=
  ∀ (x : Reg) (s : State),
    (s.input.keyEvent = none → ∃ t : State, exec (.waitKey x) s = .next t ∧ t.pc = s.pc ∧ t.run = s.run ∧
      t.out.keyWait = true ∧ t.out.disp = .none ∧ SameRegsBut [] s t ∧ SameOutsideRegs s t) ∧
    (∀ k : Byte, s.input.keyEvent = some k → ∃ t : State, exec (.waitKey x) s = .next t ∧ t.reg x = k ∧
      WritesRegsOnly [x] s t)

/-- 47_keypad_timers R185, R186 (decision D5): FX15 and FX18 set their timer to V[x]; the countdown of the same tick then
applies, so it holds one less at the end of the tick. -/
def Obligations.SetTimerThenCountDownInTheSameTick : Prop :=
  ∀ (x : Reg) (s : State), s.run = .running →
    (∃ t : State, exec (.ldDt x) s = .next t ∧ t.dt = s.reg x ∧ t.st = s.st ∧
      t.endTick.dt.toNat = (s.reg x).toNat - 1 ∧ SameRegsBut [] s t ∧ FallsThrough s t ∧ t.I = s.I ∧ SameStack s t ∧
      t.fault = s.fault ∧ SameMem s t ∧ SameInputs s t ∧ IssuesNothing t) ∧
    (∃ t : State, exec (.ldSt x) s = .next t ∧ t.st = s.reg x ∧ t.dt = s.dt ∧
      t.endTick.st.toNat = (s.reg x).toNat - 1 ∧ SameRegsBut [] s t ∧ FallsThrough s t ∧ t.I = s.I ∧ SameStack s t ∧
      t.fault = s.fault ∧ SameMem s t ∧ SameInputs s t ∧ IssuesNothing t)

/-- 60_exceptions R215: each timer goes down by 1 while greater than 0 and is held at 0, independently; nothing else
changes. -/
def Obligations.CountDownStopsAtZero : Prop :=
  ∀ s : State,
    (0 < s.dt.toNat → s.countDown.dt.toNat + 1 = s.dt.toNat) ∧ (s.dt.toNat = 0 → s.countDown.dt.toNat = 0) ∧
    (0 < s.st.toNat → s.countDown.st.toNat + 1 = s.st.toNat) ∧ (s.st.toNat = 0 → s.countDown.st.toNat = 0) ∧
    { s.countDown with dt := s.dt, st := s.st } = s

/-! ### Whole-machine rules -/

/-- 40_engine_cycle R99 (decisions D5, D6): over all instructions, a tick that began in RUNNING and did not fault, the
halting tick and the waiting tick included, counts each timer down once, from the value its own FX15 or FX18 wrote if the
tick ran one. -/
def Obligations.TimersCountOnceInEveryRunningTick : Prop :=
  ∀ (s t : State) (i : Instr), s.run = .running → s.pc.toNat ≤ 4094 →
    decode (wordOfBytes (s.byte s.pc.toNat) (s.byte (s.pc.toNat + 1))) = .ok i → step s = .next t → t.run ≠ .faulted →
    t.dt.toNat = (match i with | .ldDt x => (s.reg x).toNat | _ => s.dt.toNat) - 1 ∧
    t.st.toNat = (match i with | .ldSt x => (s.reg x).toNat | _ => s.st.toNat) - 1

/-- The V registers an instruction may write (10_state R22). -/
def RegsWritten : Instr → List Reg
  | .ldImm x _ | .addImm x _ | .ldReg x _ | .orReg x _ | .andReg x _ | .xorReg x _ | .rnd x _ | .ldFromDt x
  | .waitKey x => [x]
  | .addReg x _ | .subReg x _ | .shr x _ | .subnReg x _ | .shl x _ => [x, 15]
  | .loadRegs x => (List.finRange 16).filter (· ≤ x)
  | .cls | .ret | .sys _ | .jp _ | .call _ | .seImm _ _ | .sneImm _ _ | .seReg _ _ | .sneReg _ _ | .ldI _ | .jpV0 _
  | .drw _ _ _ | .skp _ | .sknp _ | .ldDt _ | .ldSt _ | .addI _ | .ldGlyph _ | .storeBcd _ | .storeRegs _ => []

/-- 10_state R22: over all instructions, no V register changes but those the table lists as written. -/
def Obligations.OnlyListedRegistersAreWritten : Prop :=
  ∀ (i : Instr) (s t : State), exec i s = .next t → SameRegsBut (RegsWritten i) s t

/-- 10_state R38 ("written by"): over all instructions, `I`, the call stack, each timer and the fault record change under
no instruction but those the table lists. -/
def Obligations.SpecialRegistersHaveTheListedWriters : Prop :=
  ∀ (i : Instr) (s t : State), exec i s = .next t →
    (t.I ≠ s.I → (∃ nnn, i = .ldI nnn) ∨ (∃ x, i = .addI x) ∨ ∃ x, i = .ldGlyph x) ∧
    (¬ SameStack s t → i = .ret ∨ ∃ nnn, i = .call nnn) ∧
    (t.dt ≠ s.dt → ∃ x, i = .ldDt x) ∧ (t.st ≠ s.st → ∃ x, i = .ldSt x) ∧
    (t.fault ≠ s.fault → t.run = .faulted) ∧ SameInputs s t

/-- How many bytes an instruction stores, from `I` up (45_index_memory R162). -/
def BytesStored : Instr → Nat
  | .storeBcd _ => 3
  | .storeRegs x => x.val + 1
  | .cls | .ret | .sys _ | .jp _ | .call _ | .seImm _ _ | .sneImm _ _ | .seReg _ _ | .ldImm _ _ | .addImm _ _
  | .ldReg _ _ | .orReg _ _ | .andReg _ _ | .xorReg _ _ | .addReg _ _ | .subReg _ _ | .shr _ _ | .subnReg _ _
  | .shl _ _ | .sneReg _ _ | .ldI _ | .jpV0 _ | .rnd _ _ | .drw _ _ _ | .skp _ | .sknp _ | .ldFromDt _
  | .waitKey _ | .ldDt _ | .ldSt _ | .addI _ | .ldGlyph _ | .loadRegs _ => 0

/-- 45_index_memory R162, 10_state R35: over all instructions, no byte of memory changes but those FX33 and FX55 store, at
`I` and up. -/
def Obligations.MemoryChangesOnlyWhereStoredThroughI : Prop :=
  ∀ (i : Instr) (s t : State), exec i s = .next t → SameMemOutside s.I.toNat (BytesStored i) s t

/-- 00_scope R15: over all instructions, the display command is `Clear` only by 00E0, `Draw` only by DXYN, `None` by every
other; only a FX0A with no key reported signals the wait. -/
def Obligations.OutputsComeFromTheListedInstructions : Prop :=
  ∀ (i : Instr) (s t : State), exec i s = .next t →
    (t.out.disp = .clear → i = .cls) ∧
    (∀ (px py : Byte) (rows : List Byte), t.out.disp = .draw px py rows → ∃ x y n, i = .drw x y n) ∧
    (t.out.keyWait = true → (∃ x, i = .waitKey x) ∧ s.input.keyEvent = none)

/-- 00_scope R14 ("read by"): over all instructions but EX9E, EXA1, FX0A and CXNN, the inputs of the tick have no
influence. -/
def Obligations.OnlyFourInstructionsReadTheInputs : Prop :=
  ∀ (i : Instr) (s : State) (inputs : List TickIn) (tick : Nat),
    (∀ x, i ≠ .skp x) → (∀ x, i ≠ .sknp x) → (∀ x, i ≠ .waitKey x) → (∀ x nn, i ≠ .rnd x nn) →
    ∃ t : State, exec i s = .next t ∧
      exec i { s with inputs := inputs, tick := tick } = .next { t with inputs := inputs, tick := tick }

/-- The invariant holds at reset. -/
def Obligations.InvariantHoldsAtReset : Prop := State.reset.Inv

/-- The invariant holds in every launch state, whatever the ROM. -/
def Obligations.InvariantHoldsAtEveryLaunch : Prop :=
  ∀ (rom : List Byte) (s : State), State.launch rom = some s → s.Inv

/-- 10_state R28, R29, R34, 20_memory R50, 40_engine_cycle R103: every step keeps the invariant, from every state that has
it. -/
def Obligations.EveryStepKeepsTheInvariant : Prop :=
  ∀ s t : State, s.Inv → step s = .next t → t.Inv
end

