-- ==== Sys2Proof/Laws/Decode.lean ====
section
/-! SUPPORT. The fields of a word built from its digits, and a word rebuilt from its fields. -/

namespace Sys2Proof

theorem wordXYN_toNat {op x y n : Nat} (ho : op < 16) (hx : x < 16) (hy : y < 16) (hn : n < 16) :
    (wordXYN op x y n).toNat = op * 4096 + x * 256 + y * 16 + n := by
  simp only [wordXYN, BitVec.toNat_ofNat]; omega

theorem wordXNN_toNat {op x nn : Nat} (ho : op < 16) (hx : x < 16) (hn : nn < 256) :
    (wordXNN op x nn).toNat = op * 4096 + x * 256 + nn := by
  simp only [wordXNN, BitVec.toNat_ofNat]; omega

theorem wordNNN_toNat {op nnn : Nat} (ho : op < 16) (hn : nnn < 4096) :
    (wordNNN op nnn).toNat = op * 4096 + nnn := by
  simp only [wordNNN, BitVec.toNat_ofNat]; omega

theorem opField_eq (w : Word) : opField w = w.toNat / 4096 := by
  have := w.isLt
  simp only [opField, slice]; omega

theorem xField_val (w : Word) : (xField w).val = w.toNat / 256 % 16 := by
  simp [xField, slice]

theorem yField_val (w : Word) : (yField w).val = w.toNat / 16 % 16 := by
  simp [yField, slice]

theorem nField_val (w : Word) : (nField w).val = w.toNat % 16 := by
  simp [nField, slice]

theorem nnField_toNat (w : Word) : (nnField w).toNat = w.toNat % 256 := by
  simp [nnField, slice]

theorem nnnField_toNat (w : Word) : (nnnField w).toNat = w.toNat % 4096 := by
  simp [nnnField, slice]

theorem lowNibble_eq (w : Word) : slice w 3 0 = w.toNat % 16 := by simp [slice]

theorem lowByte_eq (w : Word) : slice w 7 0 = w.toNat % 256 := by simp [slice]

theorem opField_lt (w : Word) : opField w < 16 := by
  have := w.isLt
  rw [opField_eq]; omega

/-- An AND with a mask of the four high bits and the `k` low bits keeps the top nibble and the value of the low bits. -/
theorem and_topAndLow {m k : Nat} (hm : ∀ i, i < 16 → m.testBit i = decide (12 ≤ i ∨ i < k)) (hk : k ≤ 12) {w : Nat}
    (hw : w < 65536) : w &&& m = w / 4096 * 4096 + w % 2 ^ k := by
  have e : w / 4096 * 4096 + w % 2 ^ k = (w >>> 12) <<< 12 ||| w % 2 ^ k := by
    rw [← Nat.shiftLeft_add_eq_or_of_lt, Nat.shiftRight_eq_div_pow, Nat.shiftLeft_eq]
    exact lt_of_lt_of_le (Nat.mod_lt _ (by positivity)) (Nat.pow_le_pow_right (by omega) hk)
  rw [e]
  apply Nat.eq_of_testBit_eq
  intro i
  rw [Nat.testBit_and, Nat.testBit_or, Nat.testBit_shiftLeft, Nat.testBit_shiftRight, Nat.testBit_mod_two_pow]
  by_cases hi : i < 16
  · rw [hm i hi]
    by_cases h12 : 12 ≤ i
    · have : ¬ i < k := by omega
      simp [h12, this]
    · simp [h12, Bool.and_comm]
  · have hb : w.testBit i = false :=
      Nat.testBit_lt_two_pow (lt_of_lt_of_le hw (Nat.pow_le_pow_right (n := 2) (i := 16) (by omega) (by omega)))
    have h12 : 12 ≤ i := by omega
    have : w.testBit (12 + (i - 12)) = false := by rwa [show 12 + (i - 12) = i by omega]
    simp [hb, this]

theorem and_F000 (w : Word) : (w &&& 0xF000#16).toNat = w.toNat / 4096 * 4096 := by
  have := and_topAndLow (m := 0xF000) (k := 0) (by decide) (by decide) w.isLt
  simpa [Nat.mod_one] using this

theorem and_F00F (w : Word) : (w &&& 0xF00F#16).toNat = w.toNat / 4096 * 4096 + w.toNat % 16 := by
  have := and_topAndLow (m := 0xF00F) (k := 4) (by decide) (by decide) w.isLt
  simpa using this

theorem and_F0FF (w : Word) : (w &&& 0xF0FF#16).toNat = w.toNat / 4096 * 4096 + w.toNat % 256 := by
  have := and_topAndLow (m := 0xF0FF) (k := 8) (by decide) (by decide) w.isLt
  simpa using this

theorem and_FFFF (w : Word) : w &&& 0xFFFF#16 = w := BitVec.and_allOnes

/-- The two bytes of a word, high byte first, are the word. -/
theorem wordOfBytes_highByte_lowByte (w : Word) : wordOfBytes (highByte w) (lowByte w) = w := by
  have := w.isLt
  apply BitVec.eq_of_toNat_eq
  simp only [wordOfBytes, highByte, lowByte, BitVec.toNat_ofNat]
  omega

theorem wordOfBytes_toNat (hi lo : Byte) : (wordOfBytes hi lo).toNat = hi.toNat * 256 + lo.toNat := by
  have := hi.isLt
  have := lo.isLt
  simp only [wordOfBytes, BitVec.toNat_ofNat]
  omega

end Sys2Proof
end

