-- ==== Sys2Proof/Laws/Memory.lean ====
section
/-! SUPPORT. Read after write, and that every memory operation keeps the canonical form. -/

namespace Sys2Proof.Machine

variable (m : Memory)

theorem Memory.read_erase_same (a : Nat) : (m.erase a).read a = Memory.unlisted := by
  induction m with
  | nil => rfl
  | cons c rest ih =>
    simp only [Memory.erase]
    split
    · exact ih
    · simp [Memory.read, *]

theorem Memory.read_erase_ne {a b : Nat} (h : b ≠ a) : (m.erase a).read b = m.read b := by
  induction m with
  | nil => rfl
  | cons c rest ih =>
    simp only [Memory.erase, Memory.read]
    split <;> rename_i hc
    · rw [ih, if_neg (fun e => h (e.symm.trans hc))]
    · simp only [Memory.read, ih]

theorem Memory.read_insert_ne {a b : Nat} (c : Byte) (h : b ≠ a) : (m.insert a c).read b = m.read b := by
  induction m with
  | nil => simp [Memory.insert, Memory.read, h.symm]
  | cons d rest ih =>
    simp only [Memory.insert]
    split
    · simp [Memory.read, h.symm]
    · simp only [Memory.read, ih]

/-- No cell is listed at address `a`. -/
def Memory.Unlisted (m : Memory) (a : Nat) : Prop := ∀ c ∈ m, c.1 ≠ a

theorem Memory.unlisted_erase (a : Nat) : (m.erase a).Unlisted a := by
  induction m with
  | nil => simp [Memory.Unlisted, Memory.erase]
  | cons c rest ih =>
    simp only [Memory.erase]
    split
    · exact ih
    · intro d hd
      rcases List.mem_cons.1 hd with rfl | hd
      · assumption
      · exact ih d hd

theorem Memory.read_insert_same {a : Nat} (b : Byte) (h : m.Unlisted a) : (m.insert a b).read a = b := by
  induction m with
  | nil => simp [Memory.insert, Memory.read]
  | cons c rest ih =>
    simp only [Memory.insert]
    split
    · simp [Memory.read]
    · have hc : c.1 ≠ a := h c (by simp)
      simp only [Memory.read, if_neg hc]
      exact ih fun d hd => h d (by simp [hd])

/-- A read after a write to the same address gives the value written, in every memory. -/
@[simp] theorem Memory.read_write_same (a : Nat) (b : Byte) : (m.write a b).read a = b := by
  unfold Memory.write
  split
  · rw [Memory.read_erase_same, ‹b = _›]
  · exact Memory.read_insert_same _ b (m.unlisted_erase a)

/-- A write leaves every other address alone, in every memory. -/
theorem Memory.read_write_ne {a k : Nat} (b : Byte) (h : k ≠ a) : (m.write a b).read k = m.read k := by
  unfold Memory.write
  split
  · exact m.read_erase_ne h
  · rw [Memory.read_insert_ne _ b h, m.read_erase_ne h]

@[simp] theorem Memory.length_readBytes (a n : Nat) : (m.readBytes a n).length = n := by
  induction n generalizing a with
  | zero => rfl
  | succ n ih => simp [Memory.readBytes, ih]

theorem Memory.getElem?_readBytes (a : Nat) {n k : Nat} (h : k < n) : (m.readBytes a n)[k]? = some (m.read (a + k)) := by
  induction n generalizing a k with
  | zero => omega
  | succ n ih =>
    cases k with
    | zero => simp [Memory.readBytes]
    | succ k =>
      rw [Memory.readBytes, List.getElem?_cons_succ, ih (a + 1) (by omega)]
      congr 2
      omega

/-- A run of byte writes leaves every address outside it alone. -/
theorem Memory.read_writeBytes_outside (bs : List Byte) {a k : Nat} (h : k < a ∨ a + bs.length ≤ k) :
    (m.writeBytes a bs).read k = m.read k := by
  induction bs generalizing m a with
  | nil => rfl
  | cons b rest ih =>
    simp only [List.length_cons] at h
    rw [Memory.writeBytes, ih _ (by omega), Memory.read_write_ne _ _ (by omega)]

/-- A run of byte writes stores each byte at its address. -/
theorem Memory.read_writeBytes_inside {bs : List Byte} {a k : Nat} {b : Byte} (h : bs[k]? = some b) :
    (m.writeBytes a bs).read (a + k) = b := by
  induction bs generalizing m a k with
  | nil => simp at h
  | cons c rest ih =>
    rw [Memory.writeBytes]
    cases k with
    | zero =>
      rw [Memory.read_writeBytes_outside _ _ (by omega)]
      simpa using h
    | succ k =>
      have := ih (m.write a c) (a := a + 1) (by simpa using h)
      rwa [show a + 1 + k = a + (k + 1) by omega] at this

theorem Memory.wfFrom_cons (lo k : Nat) (b : Byte) :
    Memory.wfFrom lo ((k, b) :: m) = true ↔
      lo ≤ k ∧ k < Config.memSize ∧ b ≠ Memory.unlisted ∧ Memory.wfFrom (k + 1) m = true := by
  simp [Memory.wfFrom, and_assoc]

variable {m}

theorem Memory.wfFrom_mono {lo lo' : Nat} (h : Memory.wfFrom lo m = true) (hl : lo' ≤ lo) :
    Memory.wfFrom lo' m = true := by
  cases m with
  | nil => rfl
  | cons c rest =>
    rw [Memory.wfFrom_cons] at h ⊢
    exact ⟨hl.trans h.1, h.2⟩

theorem Memory.wfFrom_erase {lo : Nat} (a : Nat) (h : Memory.wfFrom lo m = true) :
    Memory.wfFrom lo (m.erase a) = true := by
  induction m generalizing lo with
  | nil => rfl
  | cons c rest ih =>
    rw [Memory.wfFrom_cons] at h
    simp only [Memory.erase]
    split
    · exact Memory.wfFrom_mono (ih h.2.2.2) (by omega)
    · rw [Memory.wfFrom_cons]
      exact ⟨h.1, h.2.1, h.2.2.1, ih h.2.2.2⟩

theorem Memory.wfFrom_insert {lo a : Nat} {b : Byte} (h : Memory.wfFrom lo m = true) (hu : m.Unlisted a) (hlo : lo ≤ a)
    (ha : a < Config.memSize) (hb : b ≠ Memory.unlisted) : Memory.wfFrom lo (m.insert a b) = true := by
  induction m generalizing lo with
  | nil => simp only [Memory.insert, Memory.wfFrom_cons]; exact ⟨hlo, ha, hb, rfl⟩
  | cons c rest ih =>
    rw [Memory.wfFrom_cons] at h
    simp only [Memory.insert]
    split
    · rw [Memory.wfFrom_cons, Memory.wfFrom_cons]
      exact ⟨hlo, ha, hb, by omega, h.2.1, h.2.2.1, h.2.2.2⟩
    · have hc : c.1 ≠ a := hu c (by simp)
      rw [Memory.wfFrom_cons]
      exact ⟨h.1, h.2.1, h.2.2.1, ih h.2.2.2 (fun d hd => hu d (by simp [hd])) (by omega)⟩

/-- A write inside the address space keeps the canonical form. -/
theorem Memory.wf_write {a : Nat} (b : Byte) (h : m.wf = true) (ha : a < Config.memSize) : (m.write a b).wf = true := by
  unfold Memory.write
  split
  · exact Memory.wfFrom_erase a h
  · exact Memory.wfFrom_insert (Memory.wfFrom_erase a h) (Memory.unlisted_erase m a) (Nat.zero_le _) ha ‹_›

/-- A run of byte writes inside the address space keeps the canonical form. -/
theorem Memory.wf_writeBytes {a : Nat} (bs : List Byte) (h : m.wf = true) (ha : a + bs.length ≤ Config.memSize) :
    (m.writeBytes a bs).wf = true := by
  induction bs generalizing m a with
  | nil => exact h
  | cons b rest ih =>
    simp only [List.length_cons] at ha
    exact ih (Memory.wf_write b h (by omega)) (by omega)

theorem accessInRange_iff (a n : Nat) : accessInRange a n = true ↔ n = 0 ∨ a + n ≤ Config.memSize := by
  simp [accessInRange]

/-- An access that is in range keeps the canonical form when it stores. -/
theorem Memory.wf_writeBytes_of_inRange {a : Nat} (bs : List Byte) (h : m.wf = true)
    (ha : accessInRange a bs.length = true) : (m.writeBytes a bs).wf = true := by
  rcases (accessInRange_iff _ _).1 ha with h0 | hle
  · rw [List.length_eq_zero_iff.1 h0]; exact h
  · exact Memory.wf_writeBytes bs h hle

end Sys2Proof.Machine
end

