-- ==== Sys2Proof/Laws/State.lean ====
section
/-! SUPPORT. One lemma per field per update of the state, so that no later proof unfolds an update. -/

namespace Sys2Proof.Machine

variable (s : State)

@[simp] theorem State.setReg_v (i : Reg) (b : Byte) : (s.setReg i b).v = s.v.set i.val b := rfl
@[simp] theorem State.setReg_I (i : Reg) (b : Byte) : (s.setReg i b).I = s.I := rfl
@[simp] theorem State.setReg_pc (i : Reg) (b : Byte) : (s.setReg i b).pc = s.pc := rfl
@[simp] theorem State.setReg_stack (i : Reg) (b : Byte) : (s.setReg i b).stack = s.stack := rfl
@[simp] theorem State.setReg_sp (i : Reg) (b : Byte) : (s.setReg i b).sp = s.sp := rfl
@[simp] theorem State.setReg_dt (i : Reg) (b : Byte) : (s.setReg i b).dt = s.dt := rfl
@[simp] theorem State.setReg_st (i : Reg) (b : Byte) : (s.setReg i b).st = s.st := rfl
@[simp] theorem State.setReg_run (i : Reg) (b : Byte) : (s.setReg i b).run = s.run := rfl
@[simp] theorem State.setReg_fault (i : Reg) (b : Byte) : (s.setReg i b).fault = s.fault := rfl
@[simp] theorem State.setReg_mem (i : Reg) (b : Byte) : (s.setReg i b).mem = s.mem := rfl
@[simp] theorem State.setReg_out (i : Reg) (b : Byte) : (s.setReg i b).out = s.out := rfl
@[simp] theorem State.setReg_inputs (i : Reg) (b : Byte) : (s.setReg i b).inputs = s.inputs := rfl
@[simp] theorem State.setReg_tick (i : Reg) (b : Byte) : (s.setReg i b).tick = s.tick := rfl

@[simp] theorem State.setRegs_v (bs : List Byte) : (s.setRegs bs).v = Vector.ofFn fun k => bs.getD k.val s.v[k.val] := rfl
@[simp] theorem State.setRegs_I (bs : List Byte) : (s.setRegs bs).I = s.I := rfl
@[simp] theorem State.setRegs_pc (bs : List Byte) : (s.setRegs bs).pc = s.pc := rfl
@[simp] theorem State.setRegs_stack (bs : List Byte) : (s.setRegs bs).stack = s.stack := rfl
@[simp] theorem State.setRegs_sp (bs : List Byte) : (s.setRegs bs).sp = s.sp := rfl
@[simp] theorem State.setRegs_dt (bs : List Byte) : (s.setRegs bs).dt = s.dt := rfl
@[simp] theorem State.setRegs_st (bs : List Byte) : (s.setRegs bs).st = s.st := rfl
@[simp] theorem State.setRegs_run (bs : List Byte) : (s.setRegs bs).run = s.run := rfl
@[simp] theorem State.setRegs_fault (bs : List Byte) : (s.setRegs bs).fault = s.fault := rfl
@[simp] theorem State.setRegs_mem (bs : List Byte) : (s.setRegs bs).mem = s.mem := rfl
@[simp] theorem State.setRegs_out (bs : List Byte) : (s.setRegs bs).out = s.out := rfl
@[simp] theorem State.setRegs_inputs (bs : List Byte) : (s.setRegs bs).inputs = s.inputs := rfl
@[simp] theorem State.setRegs_tick (bs : List Byte) : (s.setRegs bs).tick = s.tick := rfl

@[simp] theorem State.setFlagThenReg_v (x : Reg) (f r : Byte) : (s.setFlagThenReg x f r).v = (s.v.set regF.val f).set x.val r := rfl
@[simp] theorem State.setFlagThenReg_I (x : Reg) (f r : Byte) : (s.setFlagThenReg x f r).I = s.I := rfl
@[simp] theorem State.setFlagThenReg_pc (x : Reg) (f r : Byte) : (s.setFlagThenReg x f r).pc = s.pc := rfl
@[simp] theorem State.setFlagThenReg_stack (x : Reg) (f r : Byte) : (s.setFlagThenReg x f r).stack = s.stack := rfl
@[simp] theorem State.setFlagThenReg_sp (x : Reg) (f r : Byte) : (s.setFlagThenReg x f r).sp = s.sp := rfl
@[simp] theorem State.setFlagThenReg_dt (x : Reg) (f r : Byte) : (s.setFlagThenReg x f r).dt = s.dt := rfl
@[simp] theorem State.setFlagThenReg_st (x : Reg) (f r : Byte) : (s.setFlagThenReg x f r).st = s.st := rfl
@[simp] theorem State.setFlagThenReg_run (x : Reg) (f r : Byte) : (s.setFlagThenReg x f r).run = s.run := rfl
@[simp] theorem State.setFlagThenReg_fault (x : Reg) (f r : Byte) : (s.setFlagThenReg x f r).fault = s.fault := rfl
@[simp] theorem State.setFlagThenReg_mem (x : Reg) (f r : Byte) : (s.setFlagThenReg x f r).mem = s.mem := rfl
@[simp] theorem State.setFlagThenReg_out (x : Reg) (f r : Byte) : (s.setFlagThenReg x f r).out = s.out := rfl
@[simp] theorem State.setFlagThenReg_inputs (x : Reg) (f r : Byte) : (s.setFlagThenReg x f r).inputs = s.inputs := rfl
@[simp] theorem State.setFlagThenReg_tick (x : Reg) (f r : Byte) : (s.setFlagThenReg x f r).tick = s.tick := rfl

@[simp] theorem State.setI_v (w : Word) : (s.setI w).v = s.v := rfl
@[simp] theorem State.setI_I (w : Word) : (s.setI w).I = w := rfl
@[simp] theorem State.setI_pc (w : Word) : (s.setI w).pc = s.pc := rfl
@[simp] theorem State.setI_stack (w : Word) : (s.setI w).stack = s.stack := rfl
@[simp] theorem State.setI_sp (w : Word) : (s.setI w).sp = s.sp := rfl
@[simp] theorem State.setI_dt (w : Word) : (s.setI w).dt = s.dt := rfl
@[simp] theorem State.setI_st (w : Word) : (s.setI w).st = s.st := rfl
@[simp] theorem State.setI_run (w : Word) : (s.setI w).run = s.run := rfl
@[simp] theorem State.setI_fault (w : Word) : (s.setI w).fault = s.fault := rfl
@[simp] theorem State.setI_mem (w : Word) : (s.setI w).mem = s.mem := rfl
@[simp] theorem State.setI_out (w : Word) : (s.setI w).out = s.out := rfl
@[simp] theorem State.setI_inputs (w : Word) : (s.setI w).inputs = s.inputs := rfl
@[simp] theorem State.setI_tick (w : Word) : (s.setI w).tick = s.tick := rfl

@[simp] theorem State.setDt_v (b : Byte) : (s.setDt b).v = s.v := rfl
@[simp] theorem State.setDt_I (b : Byte) : (s.setDt b).I = s.I := rfl
@[simp] theorem State.setDt_pc (b : Byte) : (s.setDt b).pc = s.pc := rfl
@[simp] theorem State.setDt_stack (b : Byte) : (s.setDt b).stack = s.stack := rfl
@[simp] theorem State.setDt_sp (b : Byte) : (s.setDt b).sp = s.sp := rfl
@[simp] theorem State.setDt_dt (b : Byte) : (s.setDt b).dt = b := rfl
@[simp] theorem State.setDt_st (b : Byte) : (s.setDt b).st = s.st := rfl
@[simp] theorem State.setDt_run (b : Byte) : (s.setDt b).run = s.run := rfl
@[simp] theorem State.setDt_fault (b : Byte) : (s.setDt b).fault = s.fault := rfl
@[simp] theorem State.setDt_mem (b : Byte) : (s.setDt b).mem = s.mem := rfl
@[simp] theorem State.setDt_out (b : Byte) : (s.setDt b).out = s.out := rfl
@[simp] theorem State.setDt_inputs (b : Byte) : (s.setDt b).inputs = s.inputs := rfl
@[simp] theorem State.setDt_tick (b : Byte) : (s.setDt b).tick = s.tick := rfl

@[simp] theorem State.setSt_v (b : Byte) : (s.setSt b).v = s.v := rfl
@[simp] theorem State.setSt_I (b : Byte) : (s.setSt b).I = s.I := rfl
@[simp] theorem State.setSt_pc (b : Byte) : (s.setSt b).pc = s.pc := rfl
@[simp] theorem State.setSt_stack (b : Byte) : (s.setSt b).stack = s.stack := rfl
@[simp] theorem State.setSt_sp (b : Byte) : (s.setSt b).sp = s.sp := rfl
@[simp] theorem State.setSt_dt (b : Byte) : (s.setSt b).dt = s.dt := rfl
@[simp] theorem State.setSt_st (b : Byte) : (s.setSt b).st = b := rfl
@[simp] theorem State.setSt_run (b : Byte) : (s.setSt b).run = s.run := rfl
@[simp] theorem State.setSt_fault (b : Byte) : (s.setSt b).fault = s.fault := rfl
@[simp] theorem State.setSt_mem (b : Byte) : (s.setSt b).mem = s.mem := rfl
@[simp] theorem State.setSt_out (b : Byte) : (s.setSt b).out = s.out := rfl
@[simp] theorem State.setSt_inputs (b : Byte) : (s.setSt b).inputs = s.inputs := rfl
@[simp] theorem State.setSt_tick (b : Byte) : (s.setSt b).tick = s.tick := rfl

@[simp] theorem State.setMem_v (m : Memory) : (s.setMem m).v = s.v := rfl
@[simp] theorem State.setMem_I (m : Memory) : (s.setMem m).I = s.I := rfl
@[simp] theorem State.setMem_pc (m : Memory) : (s.setMem m).pc = s.pc := rfl
@[simp] theorem State.setMem_stack (m : Memory) : (s.setMem m).stack = s.stack := rfl
@[simp] theorem State.setMem_sp (m : Memory) : (s.setMem m).sp = s.sp := rfl
@[simp] theorem State.setMem_dt (m : Memory) : (s.setMem m).dt = s.dt := rfl
@[simp] theorem State.setMem_st (m : Memory) : (s.setMem m).st = s.st := rfl
@[simp] theorem State.setMem_run (m : Memory) : (s.setMem m).run = s.run := rfl
@[simp] theorem State.setMem_fault (m : Memory) : (s.setMem m).fault = s.fault := rfl
@[simp] theorem State.setMem_mem (m : Memory) : (s.setMem m).mem = m := rfl
@[simp] theorem State.setMem_out (m : Memory) : (s.setMem m).out = s.out := rfl
@[simp] theorem State.setMem_inputs (m : Memory) : (s.setMem m).inputs = s.inputs := rfl
@[simp] theorem State.setMem_tick (m : Memory) : (s.setMem m).tick = s.tick := rfl

@[simp] theorem State.setOut_v (o : TickOut) : (s.setOut o).v = s.v := rfl
@[simp] theorem State.setOut_I (o : TickOut) : (s.setOut o).I = s.I := rfl
@[simp] theorem State.setOut_pc (o : TickOut) : (s.setOut o).pc = s.pc := rfl
@[simp] theorem State.setOut_stack (o : TickOut) : (s.setOut o).stack = s.stack := rfl
@[simp] theorem State.setOut_sp (o : TickOut) : (s.setOut o).sp = s.sp := rfl
@[simp] theorem State.setOut_dt (o : TickOut) : (s.setOut o).dt = s.dt := rfl
@[simp] theorem State.setOut_st (o : TickOut) : (s.setOut o).st = s.st := rfl
@[simp] theorem State.setOut_run (o : TickOut) : (s.setOut o).run = s.run := rfl
@[simp] theorem State.setOut_fault (o : TickOut) : (s.setOut o).fault = s.fault := rfl
@[simp] theorem State.setOut_mem (o : TickOut) : (s.setOut o).mem = s.mem := rfl
@[simp] theorem State.setOut_out (o : TickOut) : (s.setOut o).out = o := rfl
@[simp] theorem State.setOut_inputs (o : TickOut) : (s.setOut o).inputs = s.inputs := rfl
@[simp] theorem State.setOut_tick (o : TickOut) : (s.setOut o).tick = s.tick := rfl

@[simp] theorem State.setPcRun_v (p : Word) (r : RunState) : (s.setPcRun p r).v = s.v := rfl
@[simp] theorem State.setPcRun_I (p : Word) (r : RunState) : (s.setPcRun p r).I = s.I := rfl
@[simp] theorem State.setPcRun_pc (p : Word) (r : RunState) : (s.setPcRun p r).pc = p := rfl
@[simp] theorem State.setPcRun_stack (p : Word) (r : RunState) : (s.setPcRun p r).stack = s.stack := rfl
@[simp] theorem State.setPcRun_sp (p : Word) (r : RunState) : (s.setPcRun p r).sp = s.sp := rfl
@[simp] theorem State.setPcRun_dt (p : Word) (r : RunState) : (s.setPcRun p r).dt = s.dt := rfl
@[simp] theorem State.setPcRun_st (p : Word) (r : RunState) : (s.setPcRun p r).st = s.st := rfl
@[simp] theorem State.setPcRun_run (p : Word) (r : RunState) : (s.setPcRun p r).run = r := rfl
@[simp] theorem State.setPcRun_fault (p : Word) (r : RunState) : (s.setPcRun p r).fault = s.fault := rfl
@[simp] theorem State.setPcRun_mem (p : Word) (r : RunState) : (s.setPcRun p r).mem = s.mem := rfl
@[simp] theorem State.setPcRun_out (p : Word) (r : RunState) : (s.setPcRun p r).out = s.out := rfl
@[simp] theorem State.setPcRun_inputs (p : Word) (r : RunState) : (s.setPcRun p r).inputs = s.inputs := rfl
@[simp] theorem State.setPcRun_tick (p : Word) (r : RunState) : (s.setPcRun p r).tick = s.tick := rfl

@[simp] theorem State.sequence_v (p : Word) (a : PcAction) : (s.sequence p a).v = s.v := rfl
@[simp] theorem State.sequence_I (p : Word) (a : PcAction) : (s.sequence p a).I = s.I := rfl
@[simp] theorem State.sequence_pc (p : Word) (a : PcAction) : (s.sequence p a).pc = a.target p := rfl
@[simp] theorem State.sequence_stack (p : Word) (a : PcAction) : (s.sequence p a).stack = s.stack := rfl
@[simp] theorem State.sequence_sp (p : Word) (a : PcAction) : (s.sequence p a).sp = s.sp := rfl
@[simp] theorem State.sequence_dt (p : Word) (a : PcAction) : (s.sequence p a).dt = s.dt := rfl
@[simp] theorem State.sequence_st (p : Word) (a : PcAction) : (s.sequence p a).st = s.st := rfl
@[simp] theorem State.sequence_run (p : Word) (a : PcAction) : (s.sequence p a).run = a.runAfter p s.run := rfl
@[simp] theorem State.sequence_fault (p : Word) (a : PcAction) : (s.sequence p a).fault = s.fault := rfl
@[simp] theorem State.sequence_mem (p : Word) (a : PcAction) : (s.sequence p a).mem = s.mem := rfl
@[simp] theorem State.sequence_out (p : Word) (a : PcAction) : (s.sequence p a).out = s.out := rfl
@[simp] theorem State.sequence_inputs (p : Word) (a : PcAction) : (s.sequence p a).inputs = s.inputs := rfl
@[simp] theorem State.sequence_tick (p : Word) (a : PcAction) : (s.sequence p a).tick = s.tick := rfl

@[simp] theorem State.takeFault_v (r : Raise) (w : Word) : (s.takeFault r w).v = s.v := rfl
@[simp] theorem State.takeFault_I (r : Raise) (w : Word) : (s.takeFault r w).I = s.I := rfl
@[simp] theorem State.takeFault_pc (r : Raise) (w : Word) : (s.takeFault r w).pc = s.pc := rfl
@[simp] theorem State.takeFault_stack (r : Raise) (w : Word) : (s.takeFault r w).stack = s.stack := rfl
@[simp] theorem State.takeFault_sp (r : Raise) (w : Word) : (s.takeFault r w).sp = s.sp := rfl
@[simp] theorem State.takeFault_dt (r : Raise) (w : Word) : (s.takeFault r w).dt = s.dt := rfl
@[simp] theorem State.takeFault_st (r : Raise) (w : Word) : (s.takeFault r w).st = s.st := rfl
@[simp] theorem State.takeFault_run (r : Raise) (w : Word) : (s.takeFault r w).run = .faulted := rfl
@[simp] theorem State.takeFault_fault (r : Raise) (w : Word) : (s.takeFault r w).fault = some ⟨r.cause, s.pc, w, r.addr⟩ := rfl
@[simp] theorem State.takeFault_mem (r : Raise) (w : Word) : (s.takeFault r w).mem = s.mem := rfl
@[simp] theorem State.takeFault_out (r : Raise) (w : Word) : (s.takeFault r w).out = .idle := rfl
@[simp] theorem State.takeFault_inputs (r : Raise) (w : Word) : (s.takeFault r w).inputs = s.inputs := rfl
@[simp] theorem State.takeFault_tick (r : Raise) (w : Word) : (s.takeFault r w).tick = s.tick := rfl

@[simp] theorem State.countDown_v : s.countDown.v = s.v := rfl
@[simp] theorem State.countDown_I : s.countDown.I = s.I := rfl
@[simp] theorem State.countDown_pc : s.countDown.pc = s.pc := rfl
@[simp] theorem State.countDown_stack : s.countDown.stack = s.stack := rfl
@[simp] theorem State.countDown_sp : s.countDown.sp = s.sp := rfl
@[simp] theorem State.countDown_dt : s.countDown.dt = countDownByte s.dt := rfl
@[simp] theorem State.countDown_st : s.countDown.st = countDownByte s.st := rfl
@[simp] theorem State.countDown_run : s.countDown.run = s.run := rfl
@[simp] theorem State.countDown_fault : s.countDown.fault = s.fault := rfl
@[simp] theorem State.countDown_mem : s.countDown.mem = s.mem := rfl
@[simp] theorem State.countDown_out : s.countDown.out = s.out := rfl
@[simp] theorem State.countDown_inputs : s.countDown.inputs = s.inputs := rfl
@[simp] theorem State.countDown_tick : s.countDown.tick = s.tick := rfl

@[simp] theorem State.nextInput_v : s.nextInput.v = s.v := rfl
@[simp] theorem State.nextInput_I : s.nextInput.I = s.I := rfl
@[simp] theorem State.nextInput_pc : s.nextInput.pc = s.pc := rfl
@[simp] theorem State.nextInput_stack : s.nextInput.stack = s.stack := rfl
@[simp] theorem State.nextInput_sp : s.nextInput.sp = s.sp := rfl
@[simp] theorem State.nextInput_dt : s.nextInput.dt = s.dt := rfl
@[simp] theorem State.nextInput_st : s.nextInput.st = s.st := rfl
@[simp] theorem State.nextInput_run : s.nextInput.run = s.run := rfl
@[simp] theorem State.nextInput_fault : s.nextInput.fault = s.fault := rfl
@[simp] theorem State.nextInput_mem : s.nextInput.mem = s.mem := rfl
@[simp] theorem State.nextInput_out : s.nextInput.out = s.out := rfl
@[simp] theorem State.nextInput_inputs : s.nextInput.inputs = s.inputs.tail := rfl
@[simp] theorem State.nextInput_tick : s.nextInput.tick = s.tick + 1 := rfl

@[simp] theorem State.gatedTick_v : s.gatedTick.v = s.v := rfl
@[simp] theorem State.gatedTick_I : s.gatedTick.I = s.I := rfl
@[simp] theorem State.gatedTick_pc : s.gatedTick.pc = s.pc := rfl
@[simp] theorem State.gatedTick_stack : s.gatedTick.stack = s.stack := rfl
@[simp] theorem State.gatedTick_sp : s.gatedTick.sp = s.sp := rfl
@[simp] theorem State.gatedTick_dt : s.gatedTick.dt = s.dt := rfl
@[simp] theorem State.gatedTick_st : s.gatedTick.st = s.st := rfl
@[simp] theorem State.gatedTick_run : s.gatedTick.run = s.run := rfl
@[simp] theorem State.gatedTick_fault : s.gatedTick.fault = s.fault := rfl
@[simp] theorem State.gatedTick_mem : s.gatedTick.mem = s.mem := rfl
@[simp] theorem State.gatedTick_out : s.gatedTick.out = .idle := rfl
@[simp] theorem State.gatedTick_inputs : s.gatedTick.inputs = s.inputs.tail := rfl
@[simp] theorem State.gatedTick_tick : s.gatedTick.tick = s.tick + 1 := rfl

end Sys2Proof.Machine
end

