-- ==== Sys2Proof/Laws/Ops.lean ====
section
/-! SUPPORT. What each shared operation can do, said once: a later proof cites these and unfolds no operation. -/

namespace Sys2Proof.Machine

variable {s t : State}

theorem State.memRead_ok {a : Word} {n : Nat} (h : accessInRange a.toNat n = true) :
    s.memRead a n = .ok (s.mem.readBytes a.toNat n) := by simp [State.memRead, h]

theorem State.memRead_error {a : Word} {n : Nat} (h : accessInRange a.toNat n = false) :
    s.memRead a n = .error ⟨.memoryOutOfRange, firstOutOfRange a⟩ := by simp [State.memRead, h]

theorem State.memWrite_ok {a : Word} {bs : List Byte} (h : accessInRange a.toNat bs.length = true) :
    s.memWrite a bs = .ok (s.setMem (s.mem.writeBytes a.toNat bs)) := by simp [State.memWrite, h]

theorem State.memWrite_error {a : Word} {bs : List Byte} (h : accessInRange a.toNat bs.length = false) :
    s.memWrite a bs = .error ⟨.memoryOutOfRange, firstOutOfRange a⟩ := by simp [State.memWrite, h]

theorem State.push_full {w : Word} (h : s.sp.val = 16) : s.push w = .error ⟨.stackOverflow, 0#16⟩ := by
  simp [State.push, h]

/-- What a push does when it is not refused: one more entry, at the old depth. -/
theorem State.push_ok (w : Word) (h : s.sp.val < 16) :
    s.push w =
      .ok { s with stack := s.stack.set s.sp.val w h, sp := ⟨s.sp.val + 1, Nat.succ_lt_succ h⟩ } := by
  simp [State.push, h]

theorem State.pop_empty (h : s.sp.val = 0) : s.pop = .error ⟨.stackUnderflow, 0#16⟩ := by
  simp [State.pop, h]

/-- What a pop does when it is not refused: the top, and one entry less; the slots keep their content. -/
theorem State.pop_ok (h : s.sp.val ≠ 0) :
    s.pop = .ok (s.top, { s with sp := ⟨s.sp.val - 1, by omega⟩ }) := by
  simp [State.pop, h]

/-- `pc + 2` is another address, so NEXT never halts. -/
theorem add_two_ne (p : Word) : p + 2#16 ≠ p := by bv_omega

/-- `pc + 4` is another address, so SKIP never halts. -/
theorem add_four_ne (p : Word) : p + 4#16 ≠ p := by bv_omega

@[simp] theorem PcAction.runAfter_next (p : Word) (r : RunState) : PcAction.runAfter p r .next = r := by
  simp [PcAction.runAfter]

@[simp] theorem PcAction.runAfter_skip (p : Word) (r : RunState) : PcAction.runAfter p r .skip = r := by
  simp [PcAction.runAfter]

@[simp] theorem PcAction.runAfter_skipIf (p : Word) (r : RunState) (c : Bool) : (skipIf c).runAfter p r = r := by
  cases c <;> simp [skipIf]

@[simp] theorem PcAction.target_next (p : Word) : PcAction.target p .next = p + 2#16 := rfl

@[simp] theorem PcAction.target_skipIf (p : Word) (c : Bool) :
    (skipIf c).target p = if c then p + 4#16 else p + 2#16 := by
  cases c <;> rfl

@[simp] theorem PcAction.isHold_skipIf (c : Bool) : (skipIf c).isHold = false := by cases c <;> rfl

/-- `run` after the sequencer is what it was, or HALTED. -/
theorem PcAction.runAfter_cases (p : Word) (r : RunState) (a : PcAction) : a.runAfter p r = r ∨ a.runAfter p r = .halted := by
  cases a <;> simp only [PcAction.runAfter] <;> (try split) <;> simp

/-- The end of a tick that did not fault. -/
theorem State.endTick_of_ne (h : s.run ≠ .faulted) : s.endTick = s.countDown.nextInput := if_neg h

/-- The end of a tick that faulted. -/
theorem State.endTick_of_faulted (h : s.run = .faulted) : s.endTick = s.nextInput := if_pos h

theorem countDownByte_toNat (b : Byte) : (countDownByte b).toNat = b.toNat - 1 := by
  unfold countDownByte
  split
  · simp [*]
  · bv_omega

theorem State.fetch_ok (h : s.pc.toNat ≤ 4094) :
    s.fetch = .ok (wordOfBytes (s.byte s.pc.toNat) (s.byte (s.pc.toNat + 1))) := by
  have : accessInRange s.pc.toNat 2 = true := (accessInRange_iff _ _).2 (Or.inr (by simp; omega))
  simp [State.fetch, this]

theorem State.fetch_error (h : 4094 < s.pc.toNat) :
    s.fetch = .error ⟨.memoryOutOfRange, firstOutOfRange s.pc⟩ := by
  have : accessInRange s.pc.toNat 2 = false := by
    rw [← Bool.not_eq_true, accessInRange_iff]
    simp; omega
  simp [State.fetch, this]

/-- A fetch that answers a word had both bytes in range. -/
theorem State.fetch_eq_ok {w : Word} (h : s.fetch = .ok w) :
    s.pc.toNat ≤ 4094 ∧ w = wordOfBytes (s.byte s.pc.toNat) (s.byte (s.pc.toNat + 1)) := by
  by_cases hp : s.pc.toNat ≤ 4094
  · rw [State.fetch_ok hp] at h
    exact ⟨hp, (Except.ok.inj h).symm⟩
  · rw [State.fetch_error (by omega)] at h
    cases h

end Sys2Proof.Machine
end

