-- ==== Sys2Proof/Laws/Registers.lean ====
section
/-! SUPPORT. Reading V registers after each update. -/

namespace Sys2Proof.Machine

theorem State.reg_eq (s : State) (k : Reg) : s.reg k = s.v[k.val] := rfl

/-- A register depends on the register file alone. -/
theorem State.reg_congr {s t : State} (h : t.v = s.v) (k : Reg) : t.reg k = s.reg k := by simp [State.reg, h]

@[simp] theorem State.reg_setReg_same (s : State) (i : Reg) (b : Byte) : (s.setReg i b).reg i = b := by
  simp [State.reg]

theorem State.reg_setReg_ne (s : State) {i k : Reg} (b : Byte) (h : k ≠ i) : (s.setReg i b).reg k = s.reg k := by
  have : i.val ≠ k.val := fun e => h (Fin.ext e.symm)
  simp [State.reg, this]

@[simp] theorem State.reg_setFlagThenReg_same (s : State) (x : Reg) (f r : Byte) :
    (s.setFlagThenReg x f r).reg x = r := State.reg_setReg_same _ _ _

theorem State.reg_setFlagThenReg_flag (s : State) {x : Reg} (f r : Byte) (h : x ≠ regF) :
    (s.setFlagThenReg x f r).reg regF = f := by
  rw [State.setFlagThenReg, State.reg_setReg_ne _ _ h.symm, State.reg_setReg_same]

theorem State.reg_setFlagThenReg_ne (s : State) {x k : Reg} (f r : Byte) (hx : k ≠ x) (hf : k ≠ regF) :
    (s.setFlagThenReg x f r).reg k = s.reg k := by
  rw [State.setFlagThenReg, State.reg_setReg_ne _ _ hx, State.reg_setReg_ne _ _ hf]

theorem State.reg_setRegs (s : State) (bs : List Byte) (k : Reg) :
    (s.setRegs bs).reg k = bs.getD k.val (s.reg k) := by
  simp [State.reg]

theorem State.length_regsUpTo (s : State) (x : Reg) : (s.regsUpTo x).length = x.val + 1 := by
  simp only [State.regsUpTo, List.length_take, Vector.length_toList]
  omega

theorem State.getElem?_regsUpTo (s : State) {x k : Reg} (h : k ≤ x) : (s.regsUpTo x)[k.val]? = some (s.reg k) := by
  have hk : k.val < x.val + 1 := Nat.lt_succ_of_le h
  simp [State.regsUpTo, hk, State.reg]

end Sys2Proof.Machine
end

