-- ==== Sys2Proof/Laws/Exec.lean ====
section
/-! SUPPORT. What one instruction and one step can do, said once. -/

namespace Sys2Proof.Machine

variable {i : Instr} {s t : State}

/-- The writes an execute stage may have made when it did not fault, with the `pc_action` that goes with each: V
registers, `I`, one timer, bytes at `I` inside the memory, or one entry of the call stack. -/
inductive Wrote (s : State) : State → PcAction → Prop
  | regs (v : Vector Byte 16) (a : PcAction) (h : ∀ t, a = .goto t → t.toNat ≤ 0x10FE) : Wrote s { s with v := v } a
  | index (w : Word) : Wrote s (s.setI w) .next
  | dt (b : Byte) : Wrote s (s.setDt b) .next
  | st (b : Byte) : Wrote s (s.setSt b) .next
  | store (bs : List Byte) (h : accessInRange s.I.toNat bs.length = true) :
      Wrote s (s.setMem (s.mem.writeBytes s.I.toNat bs)) .next
  | push (h : s.sp.val < 16) (nnn : Addr12) :
      Wrote s { s with stack := s.stack.set s.sp.val s.pc h, sp := ⟨s.sp.val + 1, Nat.succ_lt_succ h⟩ }
        (.goto (zextAddr nnn))
  | pop (h : s.sp.val ≠ 0) : Wrote s { s with sp := ⟨s.sp.val - 1, by omega⟩ } (.goto (s.top + 2#16))

theorem zextAddr_toNat (nnn : Addr12) : (zextAddr nnn).toNat = nnn.toNat := by
  have := nnn.isLt
  simp only [zextAddr, BitVec.toNat_ofNat]; omega

theorem zextByte_toNat (b : Byte) : (zextByte b).toNat = b.toNat := by
  have := b.isLt
  simp only [zextByte, BitVec.toNat_ofNat]; omega

/-- The target of BNNN is at most 0xFFF + 0xFF, with no wrap (41_control_flow R114). -/
theorem offsetTarget_toNat (nnn : Addr12) (b : Byte) : (zextAddr nnn + zextByte b).toNat = nnn.toNat + b.toNat := by
  have := nnn.isLt
  have := b.isLt
  rw [BitVec.toNat_add, zextAddr_toNat, zextByte_toNat]; omega

theorem drawX_toNat (b : Byte) : (drawX b).toNat = b.toNat % Config.displayW := by
  have : b.toNat % 64 < 64 := Nat.mod_lt _ (by omega)
  simp only [drawX, Config.displayW, BitVec.toNat_ofNat]; omega

theorem drawY_toNat (b : Byte) : (drawY b).toNat = b.toNat % Config.displayH := by
  have : b.toNat % 32 < 32 := Nat.mod_lt _ (by omega)
  simp only [drawY, Config.displayH, BitVec.toNat_ofNat]; omega

theorem drawn_bounded (a b : Byte) {rows : List Byte} (h : rows.length ≤ 15) :
    (DispCmd.draw (drawX a) (drawY b) rows).Bounded :=
  ⟨drawX_toNat a ▸ Nat.mod_lt _ (by decide), drawY_toNat b ▸ Nat.mod_lt _ (by decide), h⟩

theorem Wrote.same (a : PcAction) (h : ∀ t, a = .goto t → t.toNat ≤ 0x10FE) : Wrote s s a := Wrote.regs s.v a h

theorem skipIf_ne_goto (c : Bool) (t : Word) : skipIf c ≠ .goto t := by cases c <;> simp [skipIf]

/-- The next state of an instruction: a fault taken with the instruction's word, or writes of one of the shapes of
`Wrote`, a bounded command, and the sequencer from `pc`. -/
theorem exec_cases (h : exec i s = .next t) :
    (∃ r, t = s.takeFault r (encode i)) ∨
    ∃ s' d a, t = (s'.setOut ⟨d, a.isHold⟩).sequence s.pc a ∧ Wrote s s' a ∧ d.Bounded ∧
      (a.isHold = true → d = .none) := by
  have plain : ∀ a d, (∀ t, a = PcAction.goto t → t.toNat ≤ 0x10FE) → d.Bounded → (a.isHold = true → d = .none) →
      t = (s.setOut ⟨d, a.isHold⟩).sequence s.pc a →
      ∃ s' d a, t = (s'.setOut ⟨d, a.isHold⟩).sequence s.pc a ∧ Wrote s s' a ∧ d.Bounded ∧
        (a.isHold = true → d = .none) := fun a d hg hd hh e => ⟨s, d, a, e, Wrote.same a hg, hd, hh⟩
  have onV : ∀ v, t = ({ s with v := v }.setOut ⟨.none, false⟩).sequence s.pc .next →
      ∃ s' d a, t = (s'.setOut ⟨d, a.isHold⟩).sequence s.pc a ∧ Wrote s s' a ∧ d.Bounded ∧
        (a.isHold = true → d = .none) :=
    fun v e => ⟨_, .none, .next, e, Wrote.regs v .next (by simp), trivial, fun _ => rfl⟩
  have onStore : ∀ bs, t = (storeAtI s bs).apply i s →
      (∃ r, t = s.takeFault r (encode i)) ∨
      ∃ s' d a, t = (s'.setOut ⟨d, a.isHold⟩).sequence s.pc a ∧ Wrote s s' a ∧ d.Bounded ∧
        (a.isHold = true → d = .none) := by
    intro bs e
    cases hr : accessInRange s.I.toNat bs.length with
    | false => rw [storeAtI, State.memWrite_error hr] at e; exact .inl ⟨_, e⟩
    | true =>
      rw [storeAtI, State.memWrite_ok hr] at e
      exact .inr ⟨_, .none, .next, e, Wrote.store bs hr, trivial, fun _ => rfl⟩
  have jump : ∀ w : Word, w.toNat ≤ 0x10FE → ∀ t, PcAction.goto w = .goto t → t.toNat ≤ 0x10FE := by
    rintro w hw t ⟨⟩; exact hw
  have hz : ∀ nnn : Addr12, (zextAddr nnn).toNat ≤ 0x10FE := fun nnn => by
    have := nnn.isLt
    rw [zextAddr_toNat]; omega
  cases i <;> have h' := (Host.Outcome.next.inj h).symm
  case cls => exact .inr (plain .next .clear (by simp) trivial (by simp [PcAction.isHold]) h')
  case ret =>
    by_cases h0 : s.sp.val = 0
    · simp only [State.pop_empty h0] at h'; exact .inl ⟨_, h'⟩
    · simp only [State.pop_ok h0] at h'
      exact .inr ⟨_, .none, _, h', Wrote.pop h0, trivial, fun _ => rfl⟩
  case sys nnn => exact .inr (plain .stop .none (by simp) trivial (fun _ => rfl) h')
  case jp nnn => exact .inr (plain _ .none (jump _ (hz nnn)) trivial (fun _ => rfl) h')
  case call nnn =>
    by_cases hf : s.sp.val < 16
    · simp only [State.push_ok _ hf] at h'
      exact .inr ⟨_, .none, _, h', Wrote.push hf nnn, trivial, fun _ => rfl⟩
    · simp only [State.push_full (show s.sp.val = 16 by omega)] at h'; exact .inl ⟨_, h'⟩
  case jpV0 nnn =>
    refine .inr (plain _ .none (jump _ ?_) trivial (fun _ => rfl) h')
    have := nnn.isLt
    have := (s.reg 0).isLt
    rw [offsetTarget_toNat]; omega
  case seImm x nn => exact .inr (plain _ .none (by simp [skipIf_ne_goto]) trivial (by simp) h')
  case sneImm x nn => exact .inr (plain _ .none (by simp [skipIf_ne_goto]) trivial (by simp) h')
  case seReg x y => exact .inr (plain _ .none (by simp [skipIf_ne_goto]) trivial (by simp) h')
  case sneReg x y => exact .inr (plain _ .none (by simp [skipIf_ne_goto]) trivial (by simp) h')
  case skp x => exact .inr (plain _ .none (by simp [skipIf_ne_goto]) trivial (by simp) h')
  case sknp x => exact .inr (plain _ .none (by simp [skipIf_ne_goto]) trivial (by simp) h')
  case ldI nnn => exact .inr ⟨_, .none, .next, h', Wrote.index _, trivial, fun _ => rfl⟩
  case addI x => exact .inr ⟨_, .none, .next, h', Wrote.index _, trivial, fun _ => rfl⟩
  case ldGlyph x => exact .inr ⟨_, .none, .next, h', Wrote.index _, trivial, fun _ => rfl⟩
  case ldDt x => exact .inr ⟨_, .none, .next, h', Wrote.dt _, trivial, fun _ => rfl⟩
  case ldSt x => exact .inr ⟨_, .none, .next, h', Wrote.st _, trivial, fun _ => rfl⟩
  case storeBcd x => exact onStore _ h'
  case storeRegs x => exact onStore _ h'
  case loadRegs x =>
    cases hr : accessInRange s.I.toNat (x.val + 1) with
    | false => simp only [State.memRead_error hr] at h'; exact .inl ⟨_, h'⟩
    | true => simp only [State.memRead_ok hr] at h'; exact .inr (onV _ h')
  case drw x y n =>
    cases hr : accessInRange s.I.toNat n.val with
    | false => simp only [State.memRead_error hr] at h'; exact .inl ⟨_, h'⟩
    | true =>
      simp only [State.memRead_ok hr] at h'
      refine .inr (plain .next _ (by simp) (drawn_bounded _ _ ?_) (by simp [PcAction.isHold]) h')
      have := n.isLt
      rw [Memory.length_readBytes]; omega
  case waitKey x =>
    cases hk : s.input.keyEvent with
    | none => simp only [hk] at h'; exact .inr (plain .hold .none (by simp) trivial (fun _ => rfl) h')
    | some k => simp only [hk] at h'; exact .inr (onV _ h')
  case ldImm x nn => exact .inr (onV _ h')
  case addImm x nn => exact .inr (onV _ h')
  case rnd x nn => exact .inr (onV _ h')
  case ldReg x y => exact .inr (onV _ h')
  case orReg x y => exact .inr (onV _ h')
  case andReg x y => exact .inr (onV _ h')
  case xorReg x y => exact .inr (onV _ h')
  case addReg x y => exact .inr (onV _ h')
  case subReg x y => exact .inr (onV _ h')
  case shr x y => exact .inr (onV _ h')
  case subnReg x y => exact .inr (onV _ h')
  case shl x y => exact .inr (onV _ h')
  case ldFromDt x => exact .inr (onV _ h')

/-! What the instructions with a case of their own do in each case. -/

theorem exec_ret_ok (h : s.sp.val ≠ 0) :
    exec .ret s =
      .next ((({ s with sp := ⟨s.sp.val - 1, by omega⟩ } : State).setOut ⟨.none, false⟩).sequence s.pc
        (.goto (s.top + 2#16))) := by
  show conclude _ _ _ = _
  rw [State.pop_ok h]; rfl

theorem exec_ret_empty (h : s.sp.val = 0) :
    exec .ret s = .next (s.takeFault ⟨.stackUnderflow, 0#16⟩ (encode .ret)) := by
  show conclude _ _ _ = _
  rw [State.pop_empty h]; rfl

theorem exec_call_ok (nnn : Addr12) (h : s.sp.val < 16) :
    exec (.call nnn) s =
      .next ((({ s with
          stack := s.stack.set s.sp.val s.pc h, sp := ⟨s.sp.val + 1, Nat.succ_lt_succ h⟩ } : State).setOut
            ⟨.none, false⟩).sequence s.pc (.goto (zextAddr nnn))) := by
  show conclude _ _ _ = _
  rw [State.push_ok _ h]; rfl

theorem exec_call_full (nnn : Addr12) (h : s.sp.val = 16) :
    exec (.call nnn) s = .next (s.takeFault ⟨.stackOverflow, 0#16⟩ (encode (.call nnn))) := by
  show conclude _ _ _ = _
  rw [State.push_full h]; rfl

theorem conclude_storeAtI_ok (i : Instr) {bs : List Byte} (h : accessInRange s.I.toNat bs.length = true) :
    conclude i s (storeAtI s bs) =
      .next (((s.setMem (s.mem.writeBytes s.I.toNat bs)).setOut ⟨.none, false⟩).sequence s.pc .next) := by
  rw [storeAtI, State.memWrite_ok h]; rfl

theorem conclude_storeAtI_error (i : Instr) {bs : List Byte} (h : accessInRange s.I.toNat bs.length = false) :
    conclude i s (storeAtI s bs) =
      .next (s.takeFault ⟨.memoryOutOfRange, firstOutOfRange s.I⟩ (encode i)) := by
  rw [storeAtI, State.memWrite_error h]; rfl

theorem exec_loadRegs_ok (x : Reg) (h : accessInRange s.I.toNat (x.val + 1) = true) :
    exec (.loadRegs x) s =
      .next (((s.setRegs (s.mem.readBytes s.I.toNat (x.val + 1))).setOut ⟨.none, false⟩).sequence s.pc .next) := by
  show conclude _ _ _ = _
  rw [State.memRead_ok h]; rfl

theorem exec_loadRegs_error (x : Reg) (h : accessInRange s.I.toNat (x.val + 1) = false) :
    exec (.loadRegs x) s =
      .next (s.takeFault ⟨.memoryOutOfRange, firstOutOfRange s.I⟩ (encode (.loadRegs x))) := by
  show conclude _ _ _ = _
  rw [State.memRead_error h]; rfl

theorem exec_drw_ok (x y : Reg) (n : Count) (h : accessInRange s.I.toNat n.val = true) :
    exec (.drw x y n) s =
      .next ((s.setOut
        ⟨.draw (drawX (s.reg x)) (drawY (s.reg y)) (s.mem.readBytes s.I.toNat n.val), false⟩).sequence s.pc .next) := by
  show conclude _ _ _ = _
  rw [State.memRead_ok h]; rfl

theorem exec_drw_error (x y : Reg) (n : Count) (h : accessInRange s.I.toNat n.val = false) :
    exec (.drw x y n) s =
      .next (s.takeFault ⟨.memoryOutOfRange, firstOutOfRange s.I⟩ (encode (.drw x y n))) := by
  show conclude _ _ _ = _
  rw [State.memRead_error h]; rfl

theorem exec_waitKey_none (x : Reg) (h : s.input.keyEvent = none) :
    exec (.waitKey x) s = .next ((s.setOut ⟨.none, true⟩).sequence s.pc .hold) := by
  show conclude _ _ _ = _
  rw [h]; rfl

theorem exec_waitKey_some (x : Reg) {k : Byte} (h : s.input.keyEvent = some k) :
    exec (.waitKey x) s = .next (((s.setReg x k).setOut ⟨.none, false⟩).sequence s.pc .next) := by
  show conclude _ _ _ = _
  rw [h]; rfl

/-- The word at `pc`. -/
abbrev State.wordAtPc (s : State) : Word := wordOfBytes (s.byte s.pc.toNat) (s.byte (s.pc.toNat + 1))

/-- Every way a step can go (40_engine_cycle R90): gated, a fetch fault, a decode fault, or the decoded instruction and
the end of the tick. -/
theorem step_cases (h : step s = .next t) :
    (s.run ≠ .running ∧ t = s.gatedTick) ∨
    (s.run = .running ∧ 4094 < s.pc.toNat ∧
      t = (s.fetchFault ⟨.memoryOutOfRange, firstOutOfRange s.pc⟩).endTick) ∨
    (s.run = .running ∧ s.pc.toNat ≤ 4094 ∧ (∃ e, decode s.wordAtPc = .error e) ∧
      t = (s.decodeFault s.wordAtPc).endTick) ∨
    (s.run = .running ∧ s.pc.toNat ≤ 4094 ∧
      ∃ i u, decode s.wordAtPc = .ok i ∧ exec i s = .next u ∧ t = u.endTick) := by
  unfold step at h
  cases hr : s.run with
  | halted => rw [hr] at h; exact .inl ⟨by simp, (Host.Outcome.next.inj h).symm⟩
  | faulted => rw [hr] at h; exact .inl ⟨by simp, (Host.Outcome.next.inj h).symm⟩
  | running =>
    rw [hr] at h
    by_cases hp : s.pc.toNat ≤ 4094
    · simp only [State.fetch_ok hp] at h
      cases hd : decode s.wordAtPc with
      | error e => simp only [hd] at h; exact .inr (.inr (.inl ⟨rfl, hp, ⟨e, rfl⟩, (Host.Outcome.next.inj h).symm⟩))
      | ok i =>
        simp only [hd] at h
        cases hx : exec i s with
        | next u =>
          simp only [hx] at h
          exact .inr (.inr (.inr ⟨rfl, hp, i, u, rfl, hx, (Host.Outcome.next.inj h).symm⟩))
        | fault f => simp [hx] at h
        | refused r => simp [hx] at h
    · simp only [State.fetch_error (show 4094 < s.pc.toNat by omega)] at h
      exact .inr (.inl ⟨rfl, by omega, (Host.Outcome.next.inj h).symm⟩)

end Sys2Proof.Machine
end

