-- ==== Sys2Proof/Laws/PerInstr.lean ====
section
/-! SUPPORT. Per instruction: the word of a well-formed instruction lies in its row of the opcode table (30_encoding
R79): its group digit, and its low nibble or low byte where the row fixes them, are the row's. -/

namespace Sys2Proof.Laws.OpcodeRowOfEncoding

/-- The group digit of the word is that of the row, and so are the low digits that the row's mask fixes. -/
def Statement (i : Instr) : Prop :=
  (encode i).toNat / 4096 = i.row.bits.toNat / 4096 ∧
  (i.row.mask = 0xF00F#16 → (encode i).toNat % 16 = i.row.bits.toNat % 16) ∧
  (i.row.mask = 0xF0FF#16 → (encode i).toNat % 256 = i.row.bits.toNat % 256)

theorem statement_xyn {i : Instr} {op n : Nat} {x y : Reg} (ho : op < 16) (hn : n < 16)
    (he : encode i = wordXYN op x.val y.val n) (hr : i.row.bits.toNat = op * 4096 + n) (hm : i.row.mask = 0xF00F#16) :
    Statement i := by
  have := wordXYN_toNat ho x.isLt y.isLt hn
  have := x.isLt
  have := y.isLt
  refine ⟨?_, fun _ => ?_, fun h => ?_⟩
  · rw [he, hr]; omega
  · rw [he, hr]; omega
  · rw [hm] at h; exact absurd h (by decide)

theorem statement_x {i : Instr} {op nn : Nat} {x : Reg} (ho : op < 16) (hn : nn < 256)
    (he : encode i = wordXNN op x.val nn) (hr : i.row.bits.toNat = op * 4096 + nn) : Statement i := by
  have := wordXNN_toNat ho x.isLt hn
  have := x.isLt
  refine ⟨?_, fun _ => ?_, fun _ => ?_⟩ <;> rw [he, hr] <;> omega

theorem statement_group {i : Instr} {op k : Nat} (hk : k < 4096) (he : (encode i).toNat = op * 4096 + k)
    (hr : i.row.bits.toNat = op * 4096) (hm : i.row.mask = 0xF000#16) : Statement i := by
  refine ⟨by omega, fun h => ?_, fun h => ?_⟩ <;> rw [hm] at h <;> exact absurd h (by decide)

theorem xnn_lt (x : Reg) (nn : Byte) : x.val * 256 + nn.toNat < 4096 := by
  have := x.isLt
  have := nn.isLt
  omega

theorem statement_xnn {i : Instr} {op : Nat} {x : Reg} {nn : Byte} (ho : op < 16)
    (he : encode i = wordXNN op x.val nn.toNat) (hr : i.row.bits.toNat = op * 4096) (hm : i.row.mask = 0xF000#16) :
    Statement i :=
  statement_group (xnn_lt x nn) (by rw [he, wordXNN_toNat ho x.isLt nn.isLt]; omega) hr hm

theorem statement_nnn {i : Instr} {op : Nat} {nnn : Addr12} (ho : op < 16) (he : encode i = wordNNN op nnn.toNat)
    (hr : i.row.bits.toNat = op * 4096) (hm : i.row.mask = 0xF000#16) : Statement i :=
  statement_group nnn.isLt (by rw [he, wordNNN_toNat ho nnn.isLt]) hr hm

theorem cls : Statement .cls := by unfold Statement; decide

theorem ret : Statement .ret := by unfold Statement; decide

theorem sys (nnn : Addr12) : Statement (.sys nnn) := statement_nnn (by decide) rfl rfl rfl

theorem jp (nnn : Addr12) : Statement (.jp nnn) := statement_nnn (by decide) rfl rfl rfl

theorem call (nnn : Addr12) : Statement (.call nnn) := statement_nnn (by decide) rfl rfl rfl

theorem seImm (x : Reg) (nn : Byte) : Statement (.seImm x nn) := statement_xnn (by decide) rfl rfl rfl

theorem sneImm (x : Reg) (nn : Byte) : Statement (.sneImm x nn) := statement_xnn (by decide) rfl rfl rfl

theorem seReg (x y : Reg) : Statement (.seReg x y) := statement_xyn (by decide) (by decide) rfl rfl rfl

theorem ldImm (x : Reg) (nn : Byte) : Statement (.ldImm x nn) := statement_xnn (by decide) rfl rfl rfl

theorem addImm (x : Reg) (nn : Byte) : Statement (.addImm x nn) := statement_xnn (by decide) rfl rfl rfl

theorem ldReg (x y : Reg) : Statement (.ldReg x y) := statement_xyn (by decide) (by decide) rfl rfl rfl

theorem orReg (x y : Reg) : Statement (.orReg x y) := statement_xyn (by decide) (by decide) rfl rfl rfl

theorem andReg (x y : Reg) : Statement (.andReg x y) := statement_xyn (by decide) (by decide) rfl rfl rfl

theorem xorReg (x y : Reg) : Statement (.xorReg x y) := statement_xyn (by decide) (by decide) rfl rfl rfl

theorem addReg (x y : Reg) : Statement (.addReg x y) := statement_xyn (by decide) (by decide) rfl rfl rfl

theorem subReg (x y : Reg) : Statement (.subReg x y) := statement_xyn (by decide) (by decide) rfl rfl rfl

theorem shr (x y : Reg) : Statement (.shr x y) := statement_xyn (by decide) (by decide) rfl rfl rfl

theorem subnReg (x y : Reg) : Statement (.subnReg x y) := statement_xyn (by decide) (by decide) rfl rfl rfl

theorem shl (x y : Reg) : Statement (.shl x y) := statement_xyn (by decide) (by decide) rfl rfl rfl

theorem sneReg (x y : Reg) : Statement (.sneReg x y) := statement_xyn (by decide) (by decide) rfl rfl rfl

theorem ldI (nnn : Addr12) : Statement (.ldI nnn) := statement_nnn (by decide) rfl rfl rfl

theorem jpV0 (nnn : Addr12) : Statement (.jpV0 nnn) := statement_nnn (by decide) rfl rfl rfl

theorem rnd (x : Reg) (nn : Byte) : Statement (.rnd x nn) := statement_xnn (by decide) rfl rfl rfl

theorem drw (x y : Reg) (n : Count) : Statement (.drw x y n) := by
  have := x.isLt
  have := y.isLt
  have := n.isLt
  refine statement_group (op := 0xD) (k := x.val * 256 + y.val * 16 + n.val) (by omega) ?_ rfl rfl
  rw [show encode (.drw x y n) = wordXYN 0xD x.val y.val n.val from rfl,
    wordXYN_toNat (by decide) x.isLt y.isLt n.isLt]
  omega

theorem skp (x : Reg) : Statement (.skp x) := statement_x (by decide) (by decide) rfl rfl

theorem sknp (x : Reg) : Statement (.sknp x) := statement_x (by decide) (by decide) rfl rfl

theorem ldFromDt (x : Reg) : Statement (.ldFromDt x) := statement_x (by decide) (by decide) rfl rfl

theorem waitKey (x : Reg) : Statement (.waitKey x) := statement_x (by decide) (by decide) rfl rfl

theorem ldDt (x : Reg) : Statement (.ldDt x) := statement_x (by decide) (by decide) rfl rfl

theorem ldSt (x : Reg) : Statement (.ldSt x) := statement_x (by decide) (by decide) rfl rfl

theorem addI (x : Reg) : Statement (.addI x) := statement_x (by decide) (by decide) rfl rfl

theorem ldGlyph (x : Reg) : Statement (.ldGlyph x) := statement_x (by decide) (by decide) rfl rfl

theorem storeBcd (x : Reg) : Statement (.storeBcd x) := statement_x (by decide) (by decide) rfl rfl

theorem storeRegs (x : Reg) : Statement (.storeRegs x) := statement_x (by decide) (by decide) rfl rfl

theorem loadRegs (x : Reg) : Statement (.loadRegs x) := statement_x (by decide) (by decide) rfl rfl

end Sys2Proof.Laws.OpcodeRowOfEncoding
end

