-- ==== Sys2Proof/Tests/Slice0.lean ====
section
/-! SUPPORT. Tests of the model, each on one word or one step, and for each statement with hypotheses a concrete state
and operands that meet them. Expected results are those of spec/95_test_vectors.md (cited by their ids) or are read off the
encodings of 30_encoding. -/

namespace Sys2Proof.Tests

open Sys2Proof Sys2Proof.Machine

/-! ### Well-formedness -/

theorem test_wf_refuses_sys_00E0 : (Instr.sys 0x0E0#12).wf = false := by decide
theorem test_wf_refuses_sys_00EE : (Instr.sys 0x0EE#12).wf = false := by decide
theorem test_wf_accepts_sys_00E1 : (Instr.sys 0x0E1#12).wf = true := by decide

/-! ### Decoding: words written out bit by bit from the patterns of 30_encoding R79 -/

theorem test_decode_cls : decode 0b0000000011100000#16 = .ok .cls := by rfl
theorem test_decode_ret : decode 0b0000000011101110#16 = .ok .ret := by rfl
theorem test_decode_sys : decode 0b0000000011101111#16 = .ok (.sys 0x0EF#12) := by rfl
theorem test_decode_jp : decode 0b0001101010111100#16 = .ok (.jp 0xABC#12) := by rfl
theorem test_decode_call : decode 0b0010001100000001#16 = .ok (.call 0x301#12) := by rfl
theorem test_decode_seImm : decode 0b0011101001000010#16 = .ok (.seImm 10 0x42#8) := by rfl
theorem test_decode_sneImm : decode 0b0100101001000010#16 = .ok (.sneImm 10 0x42#8) := by rfl
theorem test_decode_seReg : decode 0b0101000100100000#16 = .ok (.seReg 1 2) := by rfl
theorem test_decode_ldImm : decode 0b0110101001111111#16 = .ok (.ldImm 10 0x7F#8) := by rfl
theorem test_decode_addImm : decode 0b0111000111111111#16 = .ok (.addImm 1 0xFF#8) := by rfl
theorem test_decode_ldReg : decode 0b1000000100100000#16 = .ok (.ldReg 1 2) := by rfl
theorem test_decode_orReg : decode 0b1000000100100001#16 = .ok (.orReg 1 2) := by rfl
theorem test_decode_andReg : decode 0b1000000100100010#16 = .ok (.andReg 1 2) := by rfl
theorem test_decode_xorReg : decode 0b1000000100100011#16 = .ok (.xorReg 1 2) := by rfl
theorem test_decode_addReg : decode 0b1000000100100100#16 = .ok (.addReg 1 2) := by rfl
theorem test_decode_subReg : decode 0b1000000100100101#16 = .ok (.subReg 1 2) := by rfl
theorem test_decode_shr : decode 0b1000000100100110#16 = .ok (.shr 1 2) := by rfl
theorem test_decode_subnReg : decode 0b1000000100100111#16 = .ok (.subnReg 1 2) := by rfl
theorem test_decode_shl : decode 0b1000000100101110#16 = .ok (.shl 1 2) := by rfl
theorem test_decode_sneReg : decode 0b1001000100100000#16 = .ok (.sneReg 1 2) := by rfl
theorem test_decode_ldI : decode 0b1010111111111111#16 = .ok (.ldI 0xFFF#12) := by rfl
theorem test_decode_jpV0 : decode 0b1011001100000000#16 = .ok (.jpV0 0x300#12) := by rfl
theorem test_decode_rnd : decode 0b1100001100001111#16 = .ok (.rnd 3 0x0F#8) := by rfl
theorem test_decode_drw : decode 0b1101000100101010#16 = .ok (.drw 1 2 10) := by rfl
theorem test_decode_skp : decode 0b1110010110011110#16 = .ok (.skp 5) := by rfl
theorem test_decode_sknp : decode 0b1110010110100001#16 = .ok (.sknp 5) := by rfl
theorem test_decode_ldFromDt : decode 0b1111000100000111#16 = .ok (.ldFromDt 1) := by rfl
theorem test_decode_waitKey : decode 0b1111001100001010#16 = .ok (.waitKey 3) := by rfl
theorem test_decode_ldDt : decode 0b1111000100010101#16 = .ok (.ldDt 1) := by rfl
theorem test_decode_ldSt : decode 0b1111000100011000#16 = .ok (.ldSt 1) := by rfl
theorem test_decode_addI : decode 0b1111000100011110#16 = .ok (.addI 1) := by rfl
theorem test_decode_ldGlyph : decode 0b1111001000101001#16 = .ok (.ldGlyph 2) := by rfl
theorem test_decode_storeBcd : decode 0b1111001100110011#16 = .ok (.storeBcd 3) := by rfl
theorem test_decode_storeRegs : decode 0b1111001001010101#16 = .ok (.storeRegs 2) := by rfl
theorem test_decode_loadRegs : decode 0b1111001001100101#16 = .ok (.loadRegs 2) := by rfl

/-- T8.1, T8.10, T8.12, T8.16, T8.23: the neighbours of the strict groups' patterns are no instructions. -/
theorem test_decode_rejects :
    decode 0x5001#16 = .error (.illegalWord 0x5001#16) ∧ decode 0x9001#16 = .error (.illegalWord 0x9001#16) ∧
    decode 0x8008#16 = .error (.illegalWord 0x8008#16) ∧ decode 0xE09F#16 = .error (.illegalWord 0xE09F#16) ∧
    decode 0xF130#16 = .error (.illegalWord 0xF130#16) := by decide

theorem test_decode_rejects_one_byte : decodeBytes [0x60#8] = .error .truncated := by rfl

theorem test_decodeTableWord : decodeTableWord 16 0xD12A = some (.drw 1 2 10) := by rfl

/-! ### One step -/

/-- The inputs of 95_test_vectors where a vector names none. -/
def quiet : TickIn := ⟨0#256, none, 0#8⟩

/-- One tick on word `w` at `pc` of `s`, with the given inputs. -/
def tickOn (s : State) (w : Nat) (inp : TickIn := quiet) : Option State :=
  match (s.withFetchWord 16 w).tickWith inp with
  | .next t => some t
  | .fault _ => none
  | .refused _ => none

/-- The reset state with V[1], V[2] and V[15] set. -/
def withV (a b f : Byte) : State := ((State.reset.setReg 1 a).setReg 2 b).setReg 15 f

/-- The reset state at another `pc`, with `n` slots of the stack live, all holding `w`. -/
def withStack (pc : Word) (n : Fin 17) (w : Word) : State :=
  { State.reset with pc := pc, sp := n, stack := Vector.replicate 16 w }

/-- T1.1 -/
theorem test_sys : (tickOn State.reset 0x0000).map (fun t => (t.pc, t.run)) = some (0x200#16, .halted) := by decide
/-- T1.4 -/
theorem test_ret : (tickOn (withStack 0x300#16 1 0x204#16) 0x00EE).map (fun t => (t.pc, t.sp)) =
    some (0x206#16, 0) := by decide
/-- T1.5 -/
theorem test_ret_empty : (tickOn State.reset 0x00EE).map (fun t => (t.pc, t.run, t.fault)) =
    some (0x200#16, .faulted, some ⟨.stackUnderflow, 0x200#16, 0x00EE#16, 0#16⟩) := by decide
/-- T1.7 -/
theorem test_jp : (tickOn State.reset 0x1ABC).map (fun t => (t.pc, t.run)) = some (0xABC#16, .running) := by decide
/-- T1.8 -/
theorem test_jp_self : (tickOn State.reset 0x1200).map (fun t => (t.pc, t.run)) = some (0x200#16, .halted) := by decide
/-- T1.10 -/
theorem test_call : (tickOn State.reset 0x2300).map (fun t => (t.pc, t.sp, t.top)) =
    some (0x300#16, 1, 0x200#16) := by decide
/-- T1.12 -/
theorem test_call_full : (tickOn (withStack 0x400#16 16 0x200#16) 0x2300).map (fun t => (t.pc, t.sp, t.fault)) =
    some (0x400#16, 16, some ⟨.stackOverflow, 0x400#16, 0x2300#16, 0#16⟩) := by decide
/-- T1.15 -/
theorem test_jpV0_no_mask : (tickOn (State.reset.setReg 0 0xFF#8) 0xBFFF).map (·.pc) = some 0x10FE#16 := by decide
/-- T2.1, T2.2 -/
theorem test_seImm :
    (tickOn (State.reset.setReg 10 0x42#8) 0x3A42).map (·.pc) = some 0x204#16 ∧
    (tickOn (State.reset.setReg 10 0x43#8) 0x3A42).map (·.pc) = some 0x202#16 := by decide
/-- T2.3, T2.4 -/
theorem test_sneImm :
    (tickOn (State.reset.setReg 10 0x42#8) 0x4A42).map (·.pc) = some 0x202#16 ∧
    (tickOn (State.reset.setReg 10 0x43#8) 0x4A42).map (·.pc) = some 0x204#16 := by decide
/-- T2.5, T2.6 -/
theorem test_seReg :
    (tickOn (withV 7#8 7#8 0#8) 0x5120).map (·.pc) = some 0x204#16 ∧
    (tickOn (withV 7#8 8#8 0#8) 0x5120).map (·.pc) = some 0x202#16 := by decide
/-- T2.8, T2.9 -/
theorem test_sneReg :
    (tickOn (withV 7#8 8#8 0#8) 0x9120).map (·.pc) = some 0x204#16 ∧
    (tickOn (withV 7#8 7#8 0#8) 0x9120).map (·.pc) = some 0x202#16 := by decide
/-- T2.11 -/
theorem test_skip_past_the_end :
    (tickOn { State.reset with pc := 0xFFC#16 } 0x3000).map (fun t => (t.pc, t.run)) =
      some (0x1000#16, .running) := by decide
/-- T3.2 -/
theorem test_ldImm : (tickOn (withV 0#8 0#8 1#8) 0x6F55).map (fun t => (t.reg 15, t.pc)) =
    some (0x55#8, 0x202#16) := by decide
/-- T3.4 -/
theorem test_addImm : (tickOn (withV 2#8 0#8 0#8) 0x71FF).map (fun t => (t.reg 1, t.reg 15)) =
    some (1#8, 0#8) := by decide
/-- T3.8 -/
theorem test_rnd : (tickOn State.reset 0xC30F ⟨0#256, none, 0xA7#8⟩).map (·.reg 3) = some 0x07#8 := by decide
/-- T4.1 -/
theorem test_ldReg : (tickOn (withV 1#8 0xAB#8 1#8) 0x8120).map (fun t => (t.reg 1, t.reg 15)) =
    some (0xAB#8, 1#8) := by decide
/-- T4.2 -/
theorem test_orReg : (tickOn (withV 0xF0#8 0x0F#8 1#8) 0x8121).map (fun t => (t.reg 1, t.reg 15)) =
    some (0xFF#8, 1#8) := by decide
/-- T4.3 -/
theorem test_andReg : (tickOn (withV 0xF0#8 0x3C#8 1#8) 0x8122).map (fun t => (t.reg 1, t.reg 15)) =
    some (0x30#8, 1#8) := by decide
/-- T4.4 -/
theorem test_xorReg : (tickOn (withV 0xF0#8 0x3C#8 1#8) 0x8123).map (fun t => (t.reg 1, t.reg 15)) =
    some (0xCC#8, 1#8) := by decide
/-- T4.7, T4.8 -/
theorem test_addReg :
    (tickOn (withV 0xFF#8 1#8 0#8) 0x8124).map (fun t => (t.reg 1, t.reg 15)) = some (0#8, 1#8) ∧
    (tickOn (withV 0xFF#8 0#8 1#8) 0x8124).map (fun t => (t.reg 1, t.reg 15)) = some (0xFF#8, 0#8) := by decide
/-- T4.11, T4.12 -/
theorem test_addReg_vf :
    (tickOn (withV 0x20#8 0#8 0xF0#8) 0x8F14).map (·.reg 15) = some 0x10#8 ∧
    (tickOn (withV 0xFF#8 0#8 1#8) 0x81F4).map (fun t => (t.reg 1, t.reg 15)) = some (0#8, 1#8) := by decide
/-- T4.15, T4.16 -/
theorem test_subReg :
    (tickOn (withV 3#8 0x0A#8 1#8) 0x8125).map (fun t => (t.reg 1, t.reg 15)) = some (0xF9#8, 0#8) ∧
    (tickOn (withV 7#8 7#8 0#8) 0x8125).map (fun t => (t.reg 1, t.reg 15)) = some (0#8, 1#8) := by decide
/-- T4.19 -/
theorem test_subReg_vf : (tickOn (withV 5#8 0#8 3#8) 0x8F15).map (·.reg 15) = some 0xFE#8 := by decide
/-- T4.23 -/
theorem test_shr : (tickOn (withV 3#8 0xF0#8 0#8) 0x8126).map (fun t => (t.reg 1, t.reg 2, t.reg 15)) =
    some (1#8, 0xF0#8, 1#8) := by decide
/-- T4.26 -/
theorem test_shr_vf : (tickOn (withV 0#8 0#8 5#8) 0x8F06).map (·.reg 15) = some 2#8 := by decide
/-- T4.27, T4.28 -/
theorem test_subnReg :
    (tickOn (withV 3#8 0x0A#8 0#8) 0x8127).map (fun t => (t.reg 1, t.reg 15)) = some (7#8, 1#8) ∧
    (tickOn (withV 0x0A#8 3#8 1#8) 0x8127).map (fun t => (t.reg 1, t.reg 15)) = some (0xF9#8, 0#8) := by decide
/-- T4.31 -/
theorem test_shl : (tickOn (withV 0x81#8 0#8 0#8) 0x810E).map (fun t => (t.reg 1, t.reg 15)) =
    some (2#8, 1#8) := by decide
/-- T5.2 -/
theorem test_ldI : (tickOn (State.reset.setI 0x123#16) 0xA000).map (·.I) = some 0#16 := by decide
/-- T5.5 -/
theorem test_addI : (tickOn ((withV 2#8 0#8 1#8).setI 0xFFFF#16) 0xF11E).map (fun t => (t.I, t.reg 15)) =
    some (1#16, 1#8) := by decide
/-- T5.8 -/
theorem test_ldGlyph : (tickOn (withV 0#8 0x1A#8 0#8) 0xF229).map (·.I) = some 0x032#16 := by decide
/-- T5.11 -/
theorem test_storeBcd : (tickOn ((State.reset.setReg 3 0x9D#8).setI 0x300#16) 0xF333).map
    (fun t => (t.byte 0x300, t.byte 0x301, t.byte 0x302)) = some (1#8, 5#8, 7#8) := by decide
/-- T5.15 -/
theorem test_storeBcd_past_the_end : (tickOn ((State.reset.setReg 3 9#8).setI 0xFFE#16) 0xF333).map
    (fun t => (t.fault, t.byte 0xFFE)) =
      some (some ⟨.memoryOutOfRange, 0x200#16, 0xF333#16, 0x1000#16⟩, 0#8) := by decide
/-- T5.17 -/
theorem test_storeRegs :
    (tickOn ((((withV 0x22#8 0x33#8 0#8).setReg 0 0x11#8).setReg 3 0x44#8).setI 0x300#16) 0xF255).map
      (fun t => (t.byte 0x300, t.byte 0x302, t.byte 0x303, t.I)) =
        some (0x11#8, 0x33#8, 0#8, 0x300#16) := by decide
/-- T5.19 -/
theorem test_storeRegs_past_the_end : (tickOn (((withV 0x7F#8 0#8 0#8).setReg 0 0x7E#8).setI 0xFFF#16) 0xF155).map
    (fun t => (t.fault, t.byte 0xFFF)) =
      some (some ⟨.memoryOutOfRange, 0x200#16, 0xF155#16, 0x1000#16⟩, 0#8) := by decide
/-- T5.22 -/
theorem test_loadRegs :
    (tickOn { State.reset.setReg 3 0x99#8 with
        I := 0x300#16, mem := [(0x300, 0xDE#8), (0x301, 0xAD#8), (0x302, 0xBE#8), (0x303, 0xEF#8)] } 0xF265).map
      (fun t => (t.reg 0, t.reg 2, t.reg 3)) = some (0xDE#8, 0xBE#8, 0x99#8) := by decide
/-- T6.1 -/
theorem test_cls : (tickOn State.reset 0x00E0).map (fun t => (t.pc, t.out)) =
    some (0x202#16, ⟨.clear, false⟩) := by decide
/-- T6.2 -/
theorem test_drw :
    (tickOn { withV 0x46#8 0x21#8 1#8 with I := 0x300#16, mem := [(0x300, 0xF0#8), (0x301, 0x90#8)] } 0xD122).map
      (fun t => (t.out.disp, t.reg 15)) = some (.draw 6#8 1#8 [0xF0#8, 0x90#8], 1#8) := by decide
/-- T6.3 -/
theorem test_drw_zero_rows : (tickOn ((withV 3#8 4#8 0#8).setI 0xFFFF#16) 0xD120).map (fun t => (t.run, t.out.disp)) =
    some (.running, .draw 3#8 4#8 []) := by decide
/-- T7.1, T7.5 -/
theorem test_skp :
    (tickOn (withV 5#8 0#8 0#8) 0xE19E ⟨BitVec.twoPow 256 5, none, 0#8⟩).map (·.pc) = some 0x204#16 ∧
    (tickOn (withV 0x15#8 0#8 0#8) 0xE19E ⟨BitVec.twoPow 256 5, none, 0#8⟩).map (·.pc) = some 0x202#16 := by decide
/-- T7.3, T7.4 -/
theorem test_sknp :
    (tickOn (withV 5#8 0#8 0#8) 0xE1A1 ⟨BitVec.twoPow 256 5, none, 0#8⟩).map (·.pc) = some 0x202#16 ∧
    (tickOn (withV 5#8 0#8 0#8) 0xE1A1).map (·.pc) = some 0x204#16 := by decide
/-- T7.7 -/
theorem test_ldFromDt : (tickOn ((withV 0x77#8 0#8 0#8).setDt 5#8) 0xF107).map (fun t => (t.reg 1, t.dt)) =
    some (5#8, 4#8) := by decide
/-- T7.10 -/
theorem test_waitKey_waits : (tickOn ((State.reset.setDt 3#8).setSt 1#8) 0xF30A).map
    (fun t => (t.pc, t.run, t.dt, t.st, t.out.keyWait)) = some (0x200#16, .running, 2#8, 0#8, true) := by decide
/-- T7.12 -/
theorem test_waitKey_key_zero : (tickOn (State.reset.setReg 3 0x11#8) 0xF30A ⟨0#256, some 0#8, 0#8⟩).map
    (fun t => (t.reg 3, t.pc)) = some (0#8, 0x202#16) := by decide
/-- T7.16, T7.18 -/
theorem test_ldDt :
    (tickOn (withV 5#8 0#8 0#8) 0xF115).map (·.dt) = some 4#8 ∧
    (tickOn (withV 1#8 0#8 0#8) 0xF115).map (·.dt) = some 0#8 := by decide
/-- T7.20 -/
theorem test_ldSt : (tickOn ((withV 5#8 0#8 0#8).setDt 2#8) 0xF118).map (fun t => (t.dt, t.st)) =
    some (1#8, 4#8) := by decide
/-- T8.3 -/
theorem test_fetch_at_4095 : (tickOn { State.reset with pc := 0xFFF#16 } 0).map (fun t => (t.pc, t.fault)) =
    some (0xFFF#16, some ⟨.memoryOutOfRange, 0xFFF#16, 0#16, 0x1000#16⟩) := by decide
/-- T8.8 -/
theorem test_illegal_word : (tickOn (State.reset.setDt 3#8) 0x5002).map (fun t => (t.dt, t.fault)) =
    some (3#8, some ⟨.decodeError, 0x200#16, 0x5002#16, 0#16⟩) := by decide

/-! ### Witnesses: concrete states and operands that meet the hypotheses of each statement, at the ends of their ranges -/

/-- The reset state with `I` at `a`. -/
def withI (a : Word) : State := State.reset.setI a

theorem witness_ResetGivesTheResetValues :
    (∃ (s t : State), s.run = .halted ∧ s.run ≠ .running ∧ s.tickWith quiet = .next t) ∧
    ∃ (s t : State), s.run = .faulted ∧ s.run ≠ .running ∧ s.tickWith quiet = .next t :=
  ⟨⟨State.reset.setPcRun 0x200#16 .halted, _, rfl, by decide, rfl⟩,
    ⟨State.reset.setPcRun 0x200#16 .faulted, _, rfl, by decide, rfl⟩⟩

theorem witness_LaunchLoadsTheRomFrom0x200 :
    (List.replicate 3584 1#8).length ≤ 3584 ∧ 3584 < (List.replicate 3585 1#8).length := by
  simp only [List.length_replicate]; omega

theorem witness_LoaderPortStoresOneByteBeforeTheFirstTick :
    (State.reset.tick = 0 ∧ 0x200 ≤ (0x200#12 : Addr12).toNat) ∧ State.reset.nextInput.tick ≠ 0 ∧
    (0x1FF#12 : Addr12).toNat < 0x200 := by decide

theorem witness_StatusOutputsShowRunFaultAndTimers :
    State.reset.fault = none ∧
    (State.reset.takeFault ⟨.stackUnderflow, 0#16⟩ 0x00EE#16).fault =
      some ⟨.stackUnderflow, 0x200#16, 0x00EE#16, 0#16⟩ := by decide

theorem witness_DecodeOfEncodeGivesTheInstructionBack :
    (Instr.sys 0xFFF#12).wf = true ∧ (Instr.drw 15 15 15).wf = true := by decide

theorem witness_EncodeOfDecodeGivesTheWordBack : decode 0xFF65#16 = .ok (.loadRegs 15) := by rfl

theorem witness_DecodeSelectsByMatchAndMask :
    decode 0x0000#16 = .ok (.sys 0#12) ∧
    (0x00E1#16 &&& (Instr.sys 0#12).row.mask = (Instr.sys 0#12).row.bits ∧
      ((Instr.sys 0#12).row.bits = 0x0000#16 → 0x00E1#16 ≠ 0x00E0#16 ∧ 0x00E1#16 ≠ 0x00EE#16)) ∧
    (0xFF65#16 &&& (Instr.loadRegs 0).row.mask = (Instr.loadRegs 0).row.bits ∧
      ((Instr.loadRegs 0).row.bits = 0x0000#16 → 0xFF65#16 ≠ 0x00E0#16 ∧ 0xFF65#16 ≠ 0x00EE#16)) := by decide

/-- A word of each line of the table, and neighbours that are in none. -/
theorem witness_IllegalWordsAreExactlyTheTables :
    IllegalWord 0x5001#16 ∧ IllegalWord 0x8AB9#16 ∧ IllegalWord 0x9ABF#16 ∧ IllegalWord 0xE19D#16 ∧
    IllegalWord 0xFF56#16 ∧ ¬ IllegalWord 0x8ABE#16 ∧ ¬ IllegalWord 0xE19E#16 ∧ ¬ IllegalWord 0xFF55#16 := by
  simp [IllegalWord]

theorem witness_FetchIsBigEndian : ({ State.reset with pc := 0xFFE#16 } : State).pc.toNat ≤ 4094 := by decide

theorem witness_StepRunsTheDecodedInstruction :
    ∃ s t : State, s.run = .running ∧ s.pc.toNat = 4094 ∧ s.pc.toNat ≤ 4094 ∧
      decode (wordOfBytes (s.byte s.pc.toNat) (s.byte (s.pc.toNat + 1))) = .ok (.ldImm 0 1#8) ∧
      exec (.ldImm 0 1#8) s = .next t :=
  ⟨{ State.reset with pc := 0xFFE#16, mem := [(0xFFE, 0x60#8), (0xFFF, 0x01#8)] }, _, rfl, by decide, by decide, by rfl,
    rfl⟩

theorem witness_HaltedAndFaultedStatesAreFrozen :
    (State.reset.setPcRun 0x200#16 .halted).run ≠ .running ∧
    (State.reset.takeFault ⟨.stackUnderflow, 0#16⟩ 0x00EE#16).run ≠ .running := by decide

theorem witness_EveryTickUsesOneInputRecord :
    ({ State.reset with inputs := [quiet] } : State).inputs = quiet :: [] ∧ State.reset.inputs = [] ∧
    ∃ t, step State.reset = .next t := ⟨rfl, rfl, _, rfl⟩

theorem witness_FetchAbove4094Faults :
    ∃ s : State, s.run = .running ∧ s.pc.toNat = 4095 ∧ 4094 < s.pc.toNat :=
  ⟨{ State.reset with pc := 0xFFF#16 }, rfl, by decide, by decide⟩

theorem witness_DecodeErrorExactlyForFetchedIllegalWords :
    (State.reset.withFetchWord 16 0x5001).run = .running ∧ (State.reset.withFetchWord 16 0x5001).pc.toNat ≤ 4094 ∧
    IllegalWord (wordOfBytes ((State.reset.withFetchWord 16 0x5001).byte 0x200)
      ((State.reset.withFetchWord 16 0x5001).byte 0x201)) ∧
    ∃ t, step (State.reset.withFetchWord 16 0x5001) = .next t ∧ t.run = .faulted ∧
      t.fault = some ⟨.decodeError, 0x200#16, 0x5001#16, 0#16⟩ := by
  exact ⟨by decide, by decide, .inl (by decide), _, rfl, by decide, by decide⟩

theorem witness_FaultRecordHoldsTheFetchedWord :
    (State.reset.withFetchWord 16 0x00EE).run = .running ∧
    (State.reset.withFetchWord 16 0x00EE).fetch = .ok 0x00EE#16 ∧
    ∃ t, step (State.reset.withFetchWord 16 0x00EE) = .next t ∧ t.run = .faulted :=
  ⟨by decide, by rfl, _, rfl, by decide⟩

/-- Every cause at the end of its range, and the neighbour that does not fault. -/
theorem witness_ExecuteFaultsExactlyWhenListed :
    State.reset.run ≠ .faulted ∧ (∃ t, exec .ret State.reset = .next t) ∧
    ExecuteFault .ret State.reset = some .stackUnderflow ∧
    ExecuteFault .ret (withStack 0x200#16 1 0x300#16) = none ∧
    ExecuteFault (.call 0x300#12) (withStack 0x200#16 16 0x300#16) = some .stackOverflow ∧
    ExecuteFault (.call 0x300#12) (withStack 0x200#16 15 0x300#16) = none ∧
    ExecuteFault (.drw 0 0 2) (withI 0xFFF#16) = some .memoryOutOfRange ∧
    ExecuteFault (.drw 0 0 1) (withI 0xFFF#16) = none ∧ ExecuteFault (.drw 0 0 0) (withI 0xFFFF#16) = none ∧
    ExecuteFault (.storeBcd 0) (withI 0xFFE#16) = some .memoryOutOfRange ∧
    ExecuteFault (.storeBcd 0) (withI 0xFFD#16) = none ∧
    ExecuteFault (.storeRegs 15) (withI 0xFF1#16) = some .memoryOutOfRange ∧
    ExecuteFault (.storeRegs 15) (withI 0xFF0#16) = none ∧
    ExecuteFault (.loadRegs 1) (withI 0xFFF#16) = some .memoryOutOfRange ∧
    ExecuteFault (.loadRegs 0) (withI 0xFFF#16) = none :=
  ⟨by decide, ⟨_, rfl⟩, by decide, by decide, by decide, by decide, by decide, by decide, by decide, by decide,
    by decide, by decide, by decide, by decide, by decide⟩

/-- A shutdown, a self-jump, a self-call, a return to its own address, and a key wait, which does not halt. -/
theorem witness_HaltsExactlyOnShutdownAndNonProgress :
    State.reset.run = .running ∧ (∃ t, exec (.sys 0#12) State.reset = .next t ∧ t.run = .halted) ∧
    (∃ t, exec (.jp 0x200#12) State.reset = .next t) ∧
    RedirectTarget (.jp 0x200#12) State.reset = some State.reset.pc ∧
    RedirectTarget (.call 0x200#12) State.reset = some State.reset.pc ∧
    RedirectTarget .ret (withStack 0x202#16 1 0x200#16) = some 0x202#16 ∧
    RedirectTarget (.waitKey 0) State.reset = none :=
  ⟨rfl, ⟨_, rfl, rfl⟩, ⟨_, rfl⟩, by decide, by decide, by decide, by decide⟩

theorem witness_CallPushesItsOwnAddress :
    State.reset.sp.val < 16 ∧ (withStack 0x400#16 15 0x200#16).sp.val < 16 := by decide

theorem witness_ReturnLandsTwoAfterThePoppedAddress :
    (withStack 0x300#16 1 0x204#16).sp ≠ 0 ∧ (withStack 0x300#16 16 0x204#16).sp ≠ 0 := by decide

theorem witness_CallThenReturnResumesAfterTheCall :
    ∃ s t m u : State, s.sp.val = 15 ∧ s.sp.val < 16 ∧ exec (.call 0x300#12) s = .next t ∧ SameStack t m ∧
      exec .ret m = .next u :=
  ⟨withStack 0x400#16 15 0x200#16, _, _, _, rfl, by decide, rfl, ⟨rfl, rfl⟩, rfl⟩

theorem witness_StackBoundsFault : State.reset.sp = 0 ∧ (withStack 0x400#16 16 0x200#16).sp.val = 16 := by decide

/-- The flag clauses of the ALU statements: a destination that is not VF. -/
theorem witness_AluFlagClauses : (1 : Reg) ≠ 15 ∧ (14 : Reg) ≠ 15 := by decide

theorem witness_BcdStoresTheThreeDigits : (withI 0xFFD#16).I.toNat ≤ 4093 := by decide

theorem witness_StoreRegistersFromI :
    (withI 0xFF0#16).I.toNat + (15 : Reg).val ≤ 4095 ∧ (withI 0xFFF#16).I.toNat + (0 : Reg).val ≤ 4095 := by decide

theorem witness_LoadRegistersFromI :
    (withI 0xFF0#16).I.toNat + (15 : Reg).val ≤ 4095 ∧ (withI 0xFFF#16).I.toNat + (0 : Reg).val ≤ 4095 ∧
    (14 : Reg) ≤ 14 ∧ (14 : Reg) < 15 := by decide

theorem witness_StoreThenLoadRestoresTheRegisters :
    ∃ s t m u : State, s.I.toNat + (15 : Reg).val ≤ 4095 ∧ exec (.storeRegs 15) s = .next t ∧ m.I = t.I ∧
      SameMem t m ∧ exec (.loadRegs 15) m = .next u :=
  ⟨withI 0xFF0#16, _, _, _, by decide, rfl, rfl, fun _ => rfl, rfl⟩

theorem witness_AccessPast4095Faults :
    (1 ≤ (2 : Count).val ∧ 4095 < (withI 0xFFF#16).I.toNat + (2 : Count).val - 1) ∧ 4093 < (withI 0xFFE#16).I.toNat ∧
    4095 < (withI 0xFF1#16).I.toNat + (15 : Reg).val ∧ 4095 < (withI 0x1000#16).I.toNat + (0 : Reg).val := by decide

theorem witness_FetchSeesTheStoredBytes :
    ∃ s t : State, s.I.toNat + (15 : Reg).val ≤ 4095 ∧ (14 : Reg) < 15 ∧ exec (.storeRegs 15) s = .next t :=
  ⟨withI 0xFF0#16, _, by decide, by decide, rfl⟩

theorem witness_CanonicalMemoriesThatReadAlikeAreEqual :
    ∃ m m' : Memory, m ≠ [] ∧ m.wf = true ∧ m'.wf = true ∧ ∀ a : Nat, m.read a = m'.read a :=
  ⟨[(0, 1#8), (4095, 2#8)], [(0, 1#8), (4095, 2#8)], by decide, by decide, by decide, fun _ => rfl⟩

theorem witness_DrawIssuesTheSpriteBytes :
    ((0 : Count).val = 0 ∨ (withI 0xFFFF#16).I.toNat + (0 : Count).val - 1 ≤ 4095) ∧
    ((15 : Count).val = 0 ∨ (withI 0xFF1#16).I.toNat + (15 : Count).val - 1 ≤ 4095) := by decide

theorem witness_KeySkipsAskTheKeyNamedByVx :
    let s : State := { State.reset.setReg 1 0xFF#8 with inputs := [⟨BitVec.twoPow 256 255, none, 0#8⟩] }
    s.input.keyDown.getLsbD (s.reg 1).toNat = true ∧ s.input.keyDown.getLsbD (s.reg 0).toNat = false := by decide

theorem witness_ReadTimerSeesTheValueBeforeTheCountdown :
    (State.reset.setDt 0#8).run = .running ∧ (State.reset.setDt 255#8).run = .running := by decide

theorem witness_KeyWaitHoldsUntilAKeyIsReported :
    ({ State.reset with inputs := [quiet] } : State).input.keyEvent = none ∧
    ({ State.reset with inputs := [⟨0#256, some 0#8, 0#8⟩] } : State).input.keyEvent = some 0#8 ∧
    ({ State.reset with inputs := [⟨0#256, some 255#8, 0#8⟩] } : State).input.keyEvent = some 255#8 := by decide

theorem witness_SetTimerThenCountDownInTheSameTick :
    (withV 0#8 255#8 0#8).run = .running ∧ (withV 0#8 255#8 0#8).reg 1 = 0#8 ∧
    (withV 0#8 255#8 0#8).reg 2 = 255#8 := by decide

theorem witness_CountDownStopsAtZero :
    0 < (State.reset.setDt 1#8).dt.toNat ∧ State.reset.dt.toNat = 0 ∧ 0 < (State.reset.setSt 255#8).st.toNat ∧
    State.reset.st.toNat = 0 := by decide

/-- The tick that halts, and a tick that sets a timer. -/
theorem witness_TimersCountOnceInEveryRunningTick :
    (∃ s t : State, s.run = .running ∧ s.pc.toNat ≤ 4094 ∧
      decode (wordOfBytes (s.byte s.pc.toNat) (s.byte (s.pc.toNat + 1))) = .ok (.jp 0x200#12) ∧ step s = .next t ∧
      t.run = .halted ∧ t.run ≠ .faulted) ∧
    ∃ s t : State, s.run = .running ∧ s.pc.toNat ≤ 4094 ∧
      decode (wordOfBytes (s.byte s.pc.toNat) (s.byte (s.pc.toNat + 1))) = .ok (.ldDt 1) ∧ step s = .next t ∧
      t.run ≠ .faulted :=
  ⟨⟨(State.reset.setDt 4#8).withFetchWord 16 0x1200, _, by decide, by decide, by rfl, rfl, by decide, by decide⟩,
    (withV 5#8 0#8 0#8).withFetchWord 16 0xF115, _, by decide, by decide, by rfl, rfl, by decide⟩

theorem witness_OnlyListedRegistersAreWritten : ∃ t, exec (.addReg 1 2) (withV 0xFF#8 1#8 0#8) = .next t := ⟨_, rfl⟩

/-- One instruction that changes each register, and one that faults. -/
theorem witness_SpecialRegistersHaveTheListedWriters :
    (∃ t, exec (.ldI 0xFFF#12) State.reset = .next t ∧ t.I ≠ State.reset.I) ∧
    (∃ t, exec (.call 0x300#12) State.reset = .next t ∧ ¬ SameStack State.reset t) ∧
    (∃ t, exec (.ldDt 1) (withV 1#8 0#8 0#8) = .next t ∧ t.dt ≠ (withV 1#8 0#8 0#8).dt) ∧
    (∃ t, exec (.ldSt 1) (withV 1#8 0#8 0#8) = .next t ∧ t.st ≠ (withV 1#8 0#8 0#8).st) ∧
    ∃ t, exec .ret State.reset = .next t ∧ t.fault ≠ State.reset.fault :=
  ⟨⟨_, rfl, by decide⟩, ⟨_, rfl, fun h => absurd h.1 (by decide)⟩, ⟨_, rfl, by decide⟩, ⟨_, rfl, by decide⟩,
    _, rfl, by decide⟩

theorem witness_MemoryChangesOnlyWhereStoredThroughI :
    (∃ t, exec (.storeBcd 1) (withV 157#8 0#8 0#8) = .next t) ∧ ∃ t, exec .cls State.reset = .next t :=
  ⟨⟨_, rfl⟩, _, rfl⟩

theorem witness_OutputsComeFromTheListedInstructions :
    (∃ t, exec .cls State.reset = .next t ∧ t.out.disp = .clear) ∧
    (∃ t, exec (.drw 0 0 0) State.reset = .next t ∧ t.out.disp = .draw 0#8 0#8 []) ∧
    ∃ t, exec (.waitKey 0) { State.reset with inputs := [quiet] } = .next t ∧ t.out.keyWait = true :=
  ⟨⟨_, rfl, rfl⟩, ⟨_, rfl, by decide⟩, _, rfl, by decide⟩

theorem witness_OnlyFourInstructionsReadTheInputs :
    (∀ x, Instr.ldFromDt 0 ≠ .skp x) ∧ (∀ x, Instr.ldFromDt 0 ≠ .sknp x) ∧ (∀ x, Instr.ldFromDt 0 ≠ .waitKey x) ∧
    ∀ x nn, Instr.ldFromDt 0 ≠ .rnd x nn := by simp

theorem witness_InvariantHoldsAtEveryLaunch : ∃ s, State.launch [0x00#8, 0xE0#8] = some s := ⟨_, rfl⟩

/-- A faulted state with a live stack slot and a byte of memory has the invariant, and steps. -/
theorem witness_EveryStepKeepsTheInvariant :
    (∃ s t : State, s ≠ State.reset ∧ s.run = .running ∧ s.Inv ∧ step s = .next t) ∧
    ∃ s t : State, s.run = .faulted ∧ s.Inv ∧ step s = .next t :=
  ⟨⟨{ withStack 0x10FE#16 16 4094#16 with mem := [(4095, 1#8)] }, _, by decide, rfl,
      ⟨by decide, by decide, by decide, by decide, fun _ h => (nomatch h), trivial, fun h => (nomatch h)⟩, rfl⟩,
    { State.reset.takeFault ⟨.stackUnderflow, 0#16⟩ 0x00EE#16 with mem := [(0, 1#8)] }, _, rfl,
    ⟨by decide, by decide, by decide, by decide, fun _ h => by cases h; rfl, trivial, fun h => (nomatch h)⟩, rfl⟩

end Sys2Proof.Tests
end

section
namespace Sys2Proof.Proofs.Memory

open Sys2Proof Sys2Proof.Machine

/-- Settles O10: a fetch in range answers the word of the two bytes at `pc`, and no carry is lost in that word. -/
theorem fetchIsBigEndian : Obligations.FetchIsBigEndian := fun _ hpc =>
  ⟨_, State.fetch_ok hpc, wordOfBytes_toNat _ _⟩

end Sys2Proof.Proofs.Memory
end

section
namespace Sys2Proof.Proofs.Encoding

open Sys2Proof

variable {w b : Word} {i : Instr}

/-! The test `w & mask = match` of 30_encoding R79, read on the digits of the word, for each mask of the table. -/

theorem and_F000_eq_iff : w &&& 0xF000#16 = b ↔ opField w * 4096 = b.toNat := by
  rw [← BitVec.toNat_inj, and_F000, opField_eq]

theorem and_F00F_eq_iff : w &&& 0xF00F#16 = b ↔ opField w * 4096 + slice w 3 0 = b.toNat := by
  rw [← BitVec.toNat_inj, and_F00F, opField_eq, lowNibble_eq]

theorem and_F0FF_eq_iff : w &&& 0xF0FF#16 = b ↔ opField w * 4096 + slice w 7 0 = b.toNat := by
  rw [← BitVec.toNat_inj, and_F0FF, opField_eq, lowByte_eq]

theorem opField_of_and_F000 (h : w &&& 0xF000#16 = b) : opField w = b.toNat / 4096 := by
  have := and_F000_eq_iff.mp h
  omega

theorem digits_of_and_F00F (h : w &&& 0xF00F#16 = b) :
    opField w = b.toNat / 4096 ∧ slice w 3 0 = b.toNat % 16 := by
  have := and_F00F_eq_iff.mp h
  have := lowNibble_eq w
  omega

theorem digits_of_and_F0FF (h : w &&& 0xF0FF#16 = b) :
    opField w = b.toNat / 4096 ∧ slice w 7 0 = b.toNat % 256 := by
  have := and_F0FF_eq_iff.mp h
  have := lowByte_eq w
  omega

/-- The two words that R75 tests first are of group 0. -/
theorem not_exact_of_opField_ne_zero (h : opField w ≠ 0) : w ≠ 0x00E0#16 ∧ w ≠ 0x00EE#16 :=
  ⟨fun e => h (e ▸ rfl), fun e => h (e ▸ rfl)⟩

/-! From the decoder to the table: a word lies in the row of the instruction it decodes to. -/

theorem decodeGroup8_selects (hop : opField w = 0x8) (h : decodeGroup8 w = .ok i) :
    w &&& i.row.mask = i.row.bits := by
  unfold decodeGroup8 at h
  split at h <;> cases h
  all_goals
    next hn => exact and_F00F_eq_iff.mpr (by rw [hop, hn]; rfl)

theorem decodeGroupE_selects (hop : opField w = 0xE) (h : decodeGroupE w = .ok i) :
    w &&& i.row.mask = i.row.bits := by
  unfold decodeGroupE at h
  split at h <;> cases h
  all_goals
    next hnn => exact and_F0FF_eq_iff.mpr (by rw [hop, hnn]; rfl)

theorem decodeGroupF_selects (hop : opField w = 0xF) (h : decodeGroupF w = .ok i) :
    w &&& i.row.mask = i.row.bits := by
  unfold decodeGroupF at h
  split at h <;> cases h
  all_goals
    next hnn => exact and_F0FF_eq_iff.mpr (by rw [hop, hnn]; rfl)

theorem decode_selects (h : decode w = .ok i) : w &&& i.row.mask = i.row.bits := by
  unfold decode at h
  split at h
  case isTrue hw => cases h; rw [hw]; rfl
  split at h
  case isTrue hw => cases h; rw [hw]; rfl
  split at h
  -- Groups 8, E and F, then 5 and 9, then no group at all; the other groups' rows fix the group digit only.
  case h_9 hop => exact decodeGroup8_selects hop h
  case h_15 hop => exact decodeGroupE_selects hop h
  case h_16 hop => exact decodeGroupF_selects hop h
  case h_6 hop | h_10 hop =>
    split at h <;> cases h
    next hn => exact and_F00F_eq_iff.mpr (by rw [hop, hn]; rfl)
  case h_17 => cases h
  all_goals
    next hop => cases h; exact and_F000_eq_iff.mpr (by rw [hop]; rfl)

/-! From the table to the decoder: a word that lies in a row decodes to an instruction of that row. -/

theorem exists_decode_of_selected (h : w &&& i.row.mask = i.row.bits)
    (hs : i.row.bits = 0x0000#16 → w ≠ 0x00E0#16 ∧ w ≠ 0x00EE#16) : ∃ j, decode w = .ok j ∧ j.row = i.row := by
  cases i
  case cls | ret =>
    obtain rfl := (and_FFFF w).symm.trans h
    exact ⟨_, rfl, rfl⟩
  case sys =>
    have hop := opField_of_and_F000 h
    obtain ⟨hcls, hret⟩ := hs rfl
    simp [decode, hcls, hret, hop, Instr.row]
  case jp | call | seImm | sneImm | ldImm | addImm | ldI | jpV0 | rnd | drw =>
    have hop := opField_of_and_F000 h
    obtain ⟨hcls, hret⟩ := not_exact_of_opField_ne_zero (w := w) (by simp [hop, Instr.row])
    simp [decode, hcls, hret, hop, Instr.row]
  case seReg | sneReg | ldReg | orReg | andReg | xorReg | addReg | subReg | shr | subnReg | shl =>
    obtain ⟨hop, hn⟩ := digits_of_and_F00F h
    obtain ⟨hcls, hret⟩ := not_exact_of_opField_ne_zero (w := w) (by simp [hop, Instr.row])
    simp [decode, decodeGroup8, hcls, hret, hop, hn, Instr.row]
  case skp | sknp | ldFromDt | waitKey | ldDt | ldSt | addI | ldGlyph | storeBcd | storeRegs | loadRegs =>
    obtain ⟨hop, hnn⟩ := digits_of_and_F0FF h
    obtain ⟨hcls, hret⟩ := not_exact_of_opField_ne_zero (w := w) (by simp [hop, Instr.row])
    simp [decode, decodeGroupE, decodeGroupF, hcls, hret, hop, hnn, Instr.row]

/-- Settles O7: the branch of the decoder fixes exactly the digits that the row's mask keeps, and back. -/
theorem decodeSelectsByMatchAndMask : Obligations.DecodeSelectsByMatchAndMask :=
  ⟨fun _ _ => decode_selects, fun _ _ => exists_decode_of_selected⟩

end Sys2Proof.Proofs.Encoding
end

section
namespace Sys2Proof.Proofs.ControlFlow

open Sys2Proof Sys2Proof.Machine

/-- 40_engine_cycle R98 on addresses as numbers: a redirect halts exactly when it goes to the instruction's own
address. -/
theorem runAfter_goto (p a : Word) (r : RunState) :
    (PcAction.goto a).runAfter p r = if p.toNat = a.toNat then .halted else r := by
  simp only [PcAction.runAfter, BitVec.toNat_inj, eq_comm]

/-- The frame of an instruction whose one effect is its `pc_action` (0NNN, 1NNN, BNNN, the skips). -/
theorem sequence_frame (s : State) (p : Word) (act : PcAction) :
    SameRegsBut [] s ((s.setOut ⟨.none, false⟩).sequence p act) ∧
    SameOutsideRegs s ((s.setOut ⟨.none, false⟩).sequence p act) ∧
    IssuesNothing ((s.setOut ⟨.none, false⟩).sequence p act) :=
  have hspecials : SameSpecials s ((s.setOut ⟨.none, false⟩).sequence p act) :=
    ⟨rfl, ⟨rfl, rfl⟩, ⟨rfl, rfl⟩, rfl, rfl, rfl⟩
  ⟨fun k _ => State.reg_congr rfl k, ⟨hspecials, fun _ => rfl⟩, rfl, rfl⟩

theorem exec_jp (nnn : Addr12) (s : State) :
    exec (.jp nnn) s = .next ((s.setOut ⟨.none, false⟩).sequence s.pc (.goto (zextAddr nnn))) := rfl

/-- Settles O21: 1NNN is a bare redirect to the address NNN, which loses nothing when it is widened to `pc`. -/
theorem jumpSetsPcToNnn : Obligations.JumpSetsPcToNnn := fun nnn s =>
  ⟨_, exec_jp nnn s, zextAddr_toNat nnn,
    (runAfter_goto s.pc (zextAddr nnn) s.run).trans (by rw [zextAddr_toNat]), sequence_frame s s.pc _⟩

end Sys2Proof.Proofs.ControlFlow
end

section
namespace Sys2Proof.Proofs.Skips

open Sys2Proof Sys2Proof.Machine Sys2Proof.Proofs.ControlFlow

variable {s : State} {c : Bool} {p : Prop}

/-- The sequencer with `skipIf c` is the whole of a skip: it never halts (42_skips R124), since neither `pc + 4` nor
`pc + 2` is `pc`. -/
theorem skipsIff_sequence_skipIf (hc : c = true ↔ p) :
    SkipsIff p s ((s.setOut ⟨.none, false⟩).sequence s.pc (skipIf c)) := by
  have hpc := PcAction.target_skipIf s.pc c
  refine ⟨fun h => ?_, fun h => ?_, PcAction.runAfter_skipIf s.pc s.run c, sequence_frame s s.pc _⟩
  · exact hpc.trans (if_pos (hc.mpr h))
  · exact hpc.trans (if_neg (mt hc.mp h))

/-- An instruction whose effect is `skipIf c` and no write skips exactly when the condition that `c` decides holds. -/
theorem exists_next_skipsIff {i : Instr} (he : exec i s = conclude i s (.done s .none (skipIf c)))
    (hc : c = true ↔ p) : ∃ t, exec i s = .next t ∧ SkipsIff p s t :=
  ⟨_, by rw [he, conclude, Effect.apply, PcAction.isHold_skipIf], skipsIff_sequence_skipIf hc⟩

/-- Settles O27: the four skips differ only in the Boolean test that `skipIf` gets, which decides the condition of
the rule. -/
theorem registerSkipsAddTwoMore : Obligations.RegisterSkipsAddTwoMore := fun _ _ _ _ =>
  ⟨exists_next_skipsIff rfl beq_iff_eq, exists_next_skipsIff rfl bne_iff_ne,
    exists_next_skipsIff rfl beq_iff_eq, exists_next_skipsIff rfl bne_iff_ne⟩

end Sys2Proof.Proofs.Skips
end

section
namespace Sys2Proof.Proofs.LoadAddRandom

open Sys2Proof Sys2Proof.Machine

variable {s u : State} {xs : List Reg}

theorem sameRegsBut_setReg (s : State) (x : Reg) (b : Byte) : SameRegsBut [x] s (s.setReg x b) := fun _ hk =>
  State.reg_setReg_ne s b (List.ne_of_not_mem_cons hk)

theorem sameOutsideRegs_setReg (s : State) (x : Reg) (b : Byte) : SameOutsideRegs s (s.setReg x b) :=
  ⟨⟨rfl, ⟨rfl, rfl⟩, ⟨rfl, rfl⟩, rfl, rfl, rfl⟩, fun _ => rfl⟩

/-- A NEXT with no display command adds nothing to the registers that were written but `pc + 2`, which is never `pc`
(40_engine_cycle R97), so it does not halt. -/
theorem writesRegsOnly_sequence_next (hregs : SameRegsBut xs s u) (houtside : SameOutsideRegs s u)
    (hrun : u.run = s.run) : WritesRegsOnly xs s ((u.setOut ⟨.none, false⟩).sequence s.pc .next) :=
  have hfall : FallsThrough s ((u.setOut ⟨.none, false⟩).sequence s.pc .next) :=
    ⟨PcAction.target_next s.pc, (PcAction.runAfter_next s.pc u.run).trans hrun⟩
  ⟨hregs, hfall, houtside, rfl, rfl⟩

/-- An instruction whose effect is one register write and NEXT leaves the byte in that register and writes no other. -/
theorem exists_next_of_setReg {i : Instr} {x : Reg} {b : Byte}
    (he : exec i s = conclude i s (.done (s.setReg x b) .none .next)) :
    ∃ t, exec i s = .next t ∧ t.reg x = b ∧ WritesRegsOnly [x] s t :=
  ⟨_, he, State.reg_setReg_same s x b,
    writesRegsOnly_sequence_next (sameRegsBut_setReg s x b) (sameOutsideRegs_setReg s x b) rfl⟩

/-- Settles O28: 6XNN is the write of NN to V[x], and `x = 15` is no case of its own since no flag is written. -/
theorem loadImmediateSetsVx : Obligations.LoadImmediateSetsVx := fun _ _ _ => exists_next_of_setReg rfl

end Sys2Proof.Proofs.LoadAddRandom
end

section
namespace Sys2Proof.Proofs.Alu

open Sys2Proof Sys2Proof.Machine Sys2Proof.Proofs.LoadAddRandom

theorem flagByte_decide (p : Prop) [Decidable p] : flagByte (decide p) = if p then 1#8 else 0#8 := by
  simp only [flagByte, decide_eq_true_eq]

theorem sameRegsBut_setFlagThenReg (s : State) (x : Reg) (f r : Byte) :
    SameRegsBut [x, 15] s (s.setFlagThenReg x f r) := fun _ hk =>
  have hkx := List.ne_of_not_mem_cons hk
  have hkf := List.ne_of_not_mem_cons (List.not_mem_of_not_mem_cons hk)
  State.reg_setFlagThenReg_ne s f r hkx hkf

theorem sameOutsideRegs_setFlagThenReg (s : State) (x : Reg) (f r : Byte) :
    SameOutsideRegs s (s.setFlagThenReg x f r) :=
  ⟨⟨rfl, ⟨rfl, rfl⟩, ⟨rfl, rfl⟩, rfl, rfl, rfl⟩, fun _ => rfl⟩

/-- An instruction whose effect is the flag, then the result (44_alu R140), and NEXT leaves the result in V[x], even
over the flag when `x = 15`, and the flag in VF otherwise. -/
theorem exists_next_of_setFlagThenReg {i : Instr} {s : State} {x : Reg} {f r : Byte}
    (he : exec i s = conclude i s (.done (s.setFlagThenReg x f r) .none .next)) :
    ∃ t, exec i s = .next t ∧ t.reg x = r ∧ (x ≠ 15 → t.reg 15 = f) ∧ WritesRegsOnly [x, 15] s t :=
  ⟨_, he, State.reg_setFlagThenReg_same s x f r, State.reg_setFlagThenReg_flag s f r,
    writesRegsOnly_sequence_next (sameRegsBut_setFlagThenReg s x f r) (sameOutsideRegs_setFlagThenReg s x f r) rfl⟩

theorem exec_addReg (x y : Reg) (s : State) :
    exec (.addReg x y) s = conclude (.addReg x y) s
      (.done
        (s.setFlagThenReg x (carryFlag (s.reg x) (s.reg y)) (BitVec.ofNat 8 ((s.reg x).toNat + (s.reg y).toNat)))
        .none .next) := rfl

/-- Settles O32: 8XY4 writes the carry flag and then the sum; cutting the sum to 8 bits is the remainder modulo 256. -/
theorem addSetsCarryThenStoresTheSum : Obligations.AddSetsCarryThenStoresTheSum := fun x y s => by
  obtain ⟨t, hexec, hsum, hcarry, hframe⟩ := exists_next_of_setFlagThenReg (exec_addReg x y s)
  refine ⟨t, hexec, ?_, fun hx => ?_, hframe⟩
  · rw [hsum, BitVec.toNat_ofNat]
  · rw [hcarry hx, carryFlag, flagByte_decide]

end Sys2Proof.Proofs.Alu
end

section
namespace Sys2Proof.Proofs.IndexRegister

open Sys2Proof Sys2Proof.Machine

/-- NEXT after a write of `I` adds only `pc + 2`, which never halts (40_engine_cycle R97). -/
theorem writesIOnly_setI_sequence_next (s : State) (a : Word) :
    WritesIOnly s (((s.setI a).setOut ⟨.none, false⟩).sequence s.pc .next) :=
  have hfall : FallsThrough s (((s.setI a).setOut ⟨.none, false⟩).sequence s.pc .next) :=
    ⟨PcAction.target_next s.pc, PcAction.runAfter_next s.pc s.run⟩
  ⟨fun k _ => State.reg_congr rfl k, hfall, ⟨rfl, rfl⟩, ⟨rfl, rfl⟩, rfl, fun _ => rfl, ⟨rfl, rfl⟩, rfl, rfl⟩

/-- An instruction whose effect is one write of `I` and NEXT leaves that address in `I` and writes nothing else. -/
theorem exists_next_of_setI {i : Instr} {s : State} {a : Word}
    (he : exec i s = conclude i s (.done (s.setI a) .none .next)) :
    ∃ t, exec i s = .next t ∧ t.I = a ∧ WritesIOnly s t :=
  ⟨_, he, rfl, writesIOnly_setI_sequence_next s a⟩

theorem exec_ldI (nnn : Addr12) (s : State) :
    exec (.ldI nnn) s = conclude (.ldI nnn) s (.done (s.setI (zextAddr nnn)) .none .next) := rfl

/-- Settles O35: ANNN is the write of NNN to `I`, which loses nothing when it is widened to 16 bits. -/
theorem loadIndexSetsIToNnn : Obligations.LoadIndexSetsIToNnn := fun nnn s => by
  obtain ⟨t, hexec, hindex, hframe⟩ := exists_next_of_setI (exec_ldI nnn s)
  exact ⟨t, hexec, by rw [hindex, zextAddr_toNat], hframe⟩

end Sys2Proof.Proofs.IndexRegister
end

section
namespace Sys2Proof.Proofs.Display

open Sys2Proof Sys2Proof.Machine

/-- The frame of the display instructions (46_display R170 to R172), whatever command they issue: the command stands in
the outputs alone, and NEXT adds only `pc + 2`, which never halts (40_engine_cycle R97). -/
theorem command_sequence_next_frame (s : State) (d : DispCmd) :
    SameRegsBut [] s ((s.setOut ⟨d, false⟩).sequence s.pc .next) ∧
    FallsThrough s ((s.setOut ⟨d, false⟩).sequence s.pc .next) ∧
    SameOutsideRegs s ((s.setOut ⟨d, false⟩).sequence s.pc .next) :=
  have hspecials : SameSpecials s ((s.setOut ⟨d, false⟩).sequence s.pc .next) :=
    ⟨rfl, ⟨rfl, rfl⟩, ⟨rfl, rfl⟩, rfl, rfl, rfl⟩
  ⟨fun k _ => State.reg_congr rfl k, ⟨PcAction.target_next s.pc, PcAction.runAfter_next s.pc s.run⟩,
    hspecials, fun _ => rfl⟩

theorem exec_cls (s : State) :
    exec .cls s = .next ((s.setOut ⟨.clear, false⟩).sequence s.pc .next) := rfl

/-- Settles O45: 00E0 has no operand and no access that can fault, so it is the command Clear and NEXT in every
state. -/
theorem clearIssuesTheClearCommand : Obligations.ClearIssuesTheClearCommand := fun s =>
  ⟨_, exec_cls s, rfl, rfl, command_sequence_next_frame s .clear⟩

end Sys2Proof.Proofs.Display
end

section
namespace Sys2Proof.Proofs.Timers

open Sys2Proof Sys2Proof.Machine

theorem countDownByte_toNat_add_one_of_pos {b : Byte} (h : 0 < b.toNat) : (countDownByte b).toNat + 1 = b.toNat := by
  rw [countDownByte_toNat, Nat.sub_add_cancel h]

theorem countDownByte_toNat_of_zero {b : Byte} (h : b.toNat = 0) : (countDownByte b).toNat = 0 := by
  rw [countDownByte_toNat, h]

/-- Settles O51: the two timers go through the same function of one byte, and every other field is the state's own. -/
theorem countDownStopsAtZero : Obligations.CountDownStopsAtZero := fun _ =>
  ⟨countDownByte_toNat_add_one_of_pos, countDownByte_toNat_of_zero,
    countDownByte_toNat_add_one_of_pos, countDownByte_toNat_of_zero, rfl⟩

end Sys2Proof.Proofs.Timers
end

section
namespace Sys2Proof.Proofs.RoundTrip

open Sys2Proof Sys2Proof.Proofs.Encoding

/-! The fields of a word are the digits it was built from, in each format (30_encoding R71, R72). -/

section Fields

variable {op n nn : Nat}

theorem opField_wordXYN (x y : Reg) (ho : op < 16) (hn : n < 16) : opField (wordXYN op x.val y.val n) = op := by
  have := wordXYN_toNat ho x.isLt y.isLt hn
  have := x.isLt
  have := y.isLt
  rw [opField_eq]; omega

theorem xField_wordXYN (x y : Reg) (ho : op < 16) (hn : n < 16) : xField (wordXYN op x.val y.val n) = x := by
  have := wordXYN_toNat ho x.isLt y.isLt hn
  have := x.isLt
  have := y.isLt
  exact Fin.ext (by rw [xField_val]; omega)

theorem yField_wordXYN (x y : Reg) (ho : op < 16) (hn : n < 16) : yField (wordXYN op x.val y.val n) = y := by
  have := wordXYN_toNat ho x.isLt y.isLt hn
  have := y.isLt
  exact Fin.ext (by rw [yField_val]; omega)

theorem lowNibble_wordXYN (x y : Reg) (ho : op < 16) (hn : n < 16) : slice (wordXYN op x.val y.val n) 3 0 = n := by
  have := wordXYN_toNat ho x.isLt y.isLt hn
  rw [lowNibble_eq]; omega

theorem nField_wordXYN (x y : Reg) (n : Count) (ho : op < 16) : nField (wordXYN op x.val y.val n.val) = n :=
  Fin.ext (by rw [nField_val, ← lowNibble_eq, lowNibble_wordXYN x y ho n.isLt])

theorem opField_wordXNN (x : Reg) (ho : op < 16) (hn : nn < 256) : opField (wordXNN op x.val nn) = op := by
  have := wordXNN_toNat ho x.isLt hn
  have := x.isLt
  rw [opField_eq]; omega

theorem xField_wordXNN (x : Reg) (ho : op < 16) (hn : nn < 256) : xField (wordXNN op x.val nn) = x := by
  have := wordXNN_toNat ho x.isLt hn
  have := x.isLt
  exact Fin.ext (by rw [xField_val]; omega)

theorem lowByte_wordXNN (x : Reg) (ho : op < 16) (hn : nn < 256) : slice (wordXNN op x.val nn) 7 0 = nn := by
  have := wordXNN_toNat ho x.isLt hn
  rw [lowByte_eq]; omega

theorem nnField_wordXNN (x : Reg) (b : Byte) (ho : op < 16) : nnField (wordXNN op x.val b.toNat) = b :=
  BitVec.eq_of_toNat_eq (by rw [nnField_toNat, ← lowByte_eq, lowByte_wordXNN x ho b.isLt])

theorem opField_wordNNN (nnn : Addr12) (ho : op < 16) : opField (wordNNN op nnn.toNat) = op := by
  have := wordNNN_toNat ho nnn.isLt
  have := nnn.isLt
  rw [opField_eq]; omega

theorem nnnField_wordNNN (nnn : Addr12) (ho : op < 16) : nnnField (wordNNN op nnn.toNat) = nnn := by
  have := wordNNN_toNat ho nnn.isLt
  have := nnn.isLt
  exact BitVec.eq_of_toNat_eq (by rw [nnnField_toNat]; omega)

/-! A word of a group other than 0 is none of the two exact words of 30_encoding R75. -/

theorem not_exact_wordXYN (x y : Reg) (ho : op < 16) (hn : n < 16) (h0 : op ≠ 0) :
    wordXYN op x.val y.val n ≠ 0x00E0#16 ∧ wordXYN op x.val y.val n ≠ 0x00EE#16 :=
  not_exact_of_opField_ne_zero (by rwa [opField_wordXYN x y ho hn])

theorem not_exact_wordXNN (x : Reg) (ho : op < 16) (hn : nn < 256) (h0 : op ≠ 0) :
    wordXNN op x.val nn ≠ 0x00E0#16 ∧ wordXNN op x.val nn ≠ 0x00EE#16 :=
  not_exact_of_opField_ne_zero (by rwa [opField_wordXNN x ho hn])

theorem not_exact_wordNNN (nnn : Addr12) (ho : op < 16) (h0 : op ≠ 0) :
    wordNNN op nnn.toNat ≠ 0x00E0#16 ∧ wordNNN op nnn.toNat ≠ 0x00EE#16 :=
  not_exact_of_opField_ne_zero (by rwa [opField_wordNNN nnn ho])

end Fields

/-- A well-formed 0NNN has neither of the exact words of 30_encoding R75. -/
theorem not_exact_encode_sys {nnn : Addr12} (hwf : (Instr.sys nnn).wf = true) :
    encode (.sys nnn) ≠ 0x00E0#16 ∧ encode (.sys nnn) ≠ 0x00EE#16 := by
  have hnnn : nnnField (encode (.sys nnn)) = nnn := nnnField_wordNNN nnn (by decide)
  have hne : nnn ≠ 0x0E0#12 ∧ nnn ≠ 0x0EE#12 := by simpa [Instr.wf] using hwf
  exact ⟨fun e => hne.1 (by rw [← hnnn, e]; rfl), fun e => hne.2 (by rw [← hnnn, e]; rfl)⟩

/-- The cases are the formats of 30_encoding R72. -/
theorem decode_encode {i : Instr} (hwf : i.wf = true) : decode (encode i) = .ok i := by
  cases i
  case cls | ret => rfl
  case sys nnn =>
    have hne := not_exact_encode_sys hwf
    simp only [encode] at hne
    simp [decode, encode, hne, opField_wordNNN, nnnField_wordNNN]
  case jp nnn | call nnn | ldI nnn | jpV0 nnn =>
    simp [decode, encode, not_exact_wordNNN, opField_wordNNN, nnnField_wordNNN]
  case seImm x nn | sneImm x nn | ldImm x nn | addImm x nn | rnd x nn =>
    have hnn : nn.toNat < 256 := nn.isLt
    simp [decode, encode, hnn, not_exact_wordXNN, opField_wordXNN, xField_wordXNN, nnField_wordXNN]
  case drw x y n =>
    simp [decode, encode, not_exact_wordXYN, opField_wordXYN, xField_wordXYN, yField_wordXYN, nField_wordXYN]
  case seReg x y | sneReg x y =>
    simp [decode, encode, not_exact_wordXYN, opField_wordXYN, xField_wordXYN, yField_wordXYN, lowNibble_wordXYN]
  case ldReg x y | orReg x y | andReg x y | xorReg x y | addReg x y | subReg x y | shr x y | subnReg x y | shl x y =>
    simp [decode, decodeGroup8, encode, not_exact_wordXYN, opField_wordXYN, xField_wordXYN, yField_wordXYN,
      lowNibble_wordXYN]
  case skp x | sknp x =>
    simp [decode, decodeGroupE, encode, not_exact_wordXNN, opField_wordXNN, xField_wordXNN, lowByte_wordXNN]
  case ldFromDt x | waitKey x | ldDt x | ldSt x | addI x | ldGlyph x | storeBcd x | storeRegs x | loadRegs x =>
    simp [decode, decodeGroupF, encode, not_exact_wordXNN, opField_wordXNN, xField_wordXNN, lowByte_wordXNN]

theorem decodeBytes_encodeBytes_append {i : Instr} (hwf : i.wf = true) (rest : List Byte) :
    decodeBytes (encodeBytes i ++ rest) = .ok (i, rest) := by
  simp [decodeBytes, encodeBytes, wordOfBytes_highByte_lowByte, decode_encode hwf]

/-- Settles O5: the decoder finds the group digit and the low digits that the encoder wrote, so it takes the
instruction's branch, and each operand field is the digit it was written to. -/
theorem decodeOfEncodeGivesTheInstructionBack : Obligations.DecodeOfEncodeGivesTheInstructionBack := fun _ hwf =>
  ⟨decode_encode hwf, decodeBytes_encodeBytes_append hwf⟩

/-! A word is rebuilt from its digits, whatever it is. -/

section Rebuild

variable {w : Word} {op n nn : Nat}

theorem wordXYN_fields (hop : opField w = op) (hn : slice w 3 0 = n) :
    wordXYN op (xField w).val (yField w).val n = w := by
  have := opField_lt w
  rw [lowNibble_eq] at hn
  rw [← BitVec.toNat_inj, wordXYN_toNat (by omega) (xField w).isLt (yField w).isLt (by omega), xField_val, yField_val,
    ← hop, opField_eq]
  omega

theorem wordXNN_fields (hop : opField w = op) (hnn : slice w 7 0 = nn) : wordXNN op (xField w).val nn = w := by
  have := opField_lt w
  rw [lowByte_eq] at hnn
  rw [← BitVec.toNat_inj, wordXNN_toNat (by omega) (xField w).isLt (by omega), xField_val, ← hop, opField_eq]
  omega

theorem wordNNN_fields (hop : opField w = op) : wordNNN op (nnnField w).toNat = w := by
  have := opField_lt w
  rw [← BitVec.toNat_inj, wordNNN_toNat (by omega) (nnnField w).isLt, nnnField_toNat, ← hop, opField_eq]
  omega

theorem lowNibble_eq_nField (w : Word) : slice w 3 0 = (nField w).val := by rw [lowNibble_eq, nField_val]

theorem lowByte_eq_nnField (w : Word) : slice w 7 0 = (nnField w).toNat := by rw [lowByte_eq, nnField_toNat]

end Rebuild

section Decoded

variable {w : Word} {i : Instr}

theorem encode_of_decodeGroup8 (hop : opField w = 0x8) (h : decodeGroup8 w = .ok i) : i.wf = true ∧ encode i = w := by
  unfold decodeGroup8 at h
  split at h <;> cases h
  all_goals
    next hn => exact ⟨rfl, wordXYN_fields hop hn⟩

theorem encode_of_decodeGroupE (hop : opField w = 0xE) (h : decodeGroupE w = .ok i) : i.wf = true ∧ encode i = w := by
  unfold decodeGroupE at h
  split at h <;> cases h
  all_goals
    next hnn => exact ⟨rfl, wordXNN_fields hop hnn⟩

theorem encode_of_decodeGroupF (hop : opField w = 0xF) (h : decodeGroupF w = .ok i) : i.wf = true ∧ encode i = w := by
  unfold decodeGroupF at h
  split at h <;> cases h
  all_goals
    next hnn => exact ⟨rfl, wordXNN_fields hop hnn⟩

/-- In group 0 the address field is the word, so a word that is none of the two exact ones is a well-formed 0NNN. -/
theorem encode_sys_nnnField (hop : opField w = 0) (hcls : w ≠ 0x00E0#16) (hret : w ≠ 0x00EE#16) :
    (Instr.sys (nnnField w)).wf = true ∧ encode (.sys (nnnField w)) = w := by
  have hw : wordNNN 0 (nnnField w).toNat = w := wordNNN_fields hop
  refine ⟨?_, hw⟩
  have h0 : nnnField w ≠ 0x0E0#12 := fun e => hcls (by rw [← hw, e]; rfl)
  have h1 : nnnField w ≠ 0x0EE#12 := fun e => hret (by rw [← hw, e]; rfl)
  simp [Instr.wf, h0, h1]

theorem encode_of_decode (h : decode w = .ok i) : i.wf = true ∧ encode i = w := by
  unfold decode at h
  split at h
  case isTrue hw => cases h; exact ⟨rfl, hw.symm⟩
  case isFalse hcls =>
  split at h
  case isTrue hw => cases h; exact ⟨rfl, hw.symm⟩
  case isFalse hret =>
  -- By group digit, `h_1` for 0 to `h_16` for F; `h_17` is no group at all.
  split at h
  case h_1 hop => cases h; exact encode_sys_nnnField hop hcls hret
  case h_2 hop | h_3 hop | h_11 hop | h_12 hop => cases h; exact ⟨rfl, wordNNN_fields hop⟩
  case h_4 hop | h_5 hop | h_7 hop | h_8 hop | h_13 hop =>
    cases h; exact ⟨rfl, wordXNN_fields hop (lowByte_eq_nnField w)⟩
  case h_6 hop | h_10 hop =>
    split at h <;> cases h
    next hn => exact ⟨rfl, wordXYN_fields hop hn⟩
  case h_9 hop => exact encode_of_decodeGroup8 hop h
  case h_14 hop => cases h; exact ⟨rfl, wordXYN_fields hop (lowNibble_eq_nField w)⟩
  case h_15 hop => exact encode_of_decodeGroupE hop h
  case h_16 hop => exact encode_of_decodeGroupF hop h
  case h_17 => cases h

end Decoded

/-- Settles O6: each branch of the decoder fixes or keeps every digit of the word, and the encoder puts the digits
back where they were. -/
theorem encodeOfDecodeGivesTheWordBack : Obligations.EncodeOfDecodeGivesTheWordBack := fun _ _ => encode_of_decode

end Sys2Proof.Proofs.RoundTrip
end

section
namespace Sys2Proof.Proofs.Invariant

open Sys2Proof Sys2Proof.Machine

variable {i : Instr} {s s' t : State} {d : DispCmd} {a : PcAction}

/-! What the parts of a tick keep. -/

/-- A tick in HALTED or FAULTED changes the outputs to none, which nothing bounds. -/
theorem inv_gatedTick (h : s.Inv) : s.gatedTick.Inv where
  memory := h.memory
  pcBound := h.pcBound
  saved := h.saved
  record := h.record
  recordPc := h.recordPc
  command := trivial
  waiting := nofun

/-- The countdown and the inputs are no part of the invariant. -/
theorem inv_endTick (h : t.Inv) : t.endTick.Inv := by
  obtain ⟨hmemory, hpc, hsaved, hrecord, hrecordPc, hcommand, hwaiting⟩ := h
  by_cases hf : t.run = .faulted
  · rw [State.endTick_of_faulted hf]
    exact ⟨hmemory, hpc, hsaved, hrecord, hrecordPc, hcommand, hwaiting⟩
  · rw [State.endTick_of_ne hf]
    exact ⟨hmemory, hpc, hsaved, hrecord, hrecordPc, hcommand, hwaiting⟩

/-- Fault entry writes the record that FAULTED asks for, at the `pc` it leaves alone. -/
theorem inv_takeFault (h : s.Inv) (r : Raise) (w : Word) : (s.takeFault r w).Inv where
  memory := h.memory
  pcBound := h.pcBound
  saved := h.saved
  record := by simp
  recordPc := by rintro _ ⟨⟩; rfl
  command := trivial
  waiting := nofun

/-! What the writes of an execute stage keep. -/

theorem wrote_fault_run (h : Wrote s s' a) : s'.fault = s.fault ∧ s'.run = s.run := by cases h <;> exact ⟨rfl, rfl⟩

theorem wrote_memory (h : Wrote s s' a) (hm : s.mem.wf = true) : s'.mem.wf = true := by
  cases h
  case store bs hr => exact Memory.wf_writeBytes_of_inRange bs hm hr
  all_goals exact hm

/-- The one entry a call adds is its own address (10_state R29). -/
theorem wrote_saved (h : Wrote s s' a) (hpc : s.pc.toNat ≤ 4094)
    (hs : ∀ k : Fin 16, k.val < s.sp.val → (s.stack[k.val]).toNat ≤ 4094) :
    ∀ k : Fin 16, k.val < s'.sp.val → (s'.stack[k.val]).toNat ≤ 4094 := by
  cases h
  case push hsp nnn =>
    intro k hk
    by_cases hkt : k.val = s.sp.val
    · simpa [hkt] using hpc
    · have hlive : k.val < s.sp.val := lt_of_le_of_ne (Nat.le_of_lt_succ hk) hkt
      simpa [Vector.getElem_set, Ne.symm hkt] using hs k hlive
  case pop hsp => exact fun k hk => hs k (lt_of_lt_of_le hk (Nat.sub_le _ _))
  all_goals exact hs

/-- The largest value a redirect writes to `pc` is that of BNNN (10_state R28); a return lands at most 2 after a saved
address. -/
theorem wrote_goto_bound {p : Word} (h : Wrote s s' (.goto p))
    (hs : ∀ k : Fin 16, k.val < s.sp.val → (s.stack[k.val]).toNat ≤ 4094) : p.toNat ≤ 0x10FE := by
  cases h
  case regs v hg => exact hg _ rfl
  case push hsp nnn =>
    have := nnn.isLt
    rw [zextAddr_toNat]; omega
  case pop hsp =>
    have htop : s.top.toNat ≤ 4094 := hs ⟨s.sp.val - 1, by omega⟩ (Nat.sub_one_lt hsp)
    rw [BitVec.toNat_add]
    simp only [BitVec.toNat_ofNat]
    omega

theorem wrote_pcBound (h : Wrote s s' a) (hpc : s.pc.toNat ≤ 4094)
    (hs : ∀ k : Fin 16, k.val < s.sp.val → (s.stack[k.val]).toNat ≤ 4094) : (a.target s.pc).toNat ≤ 0x10FE := by
  cases a
  case goto p => exact wrote_goto_bound h hs
  case next | skip =>
    rw [PcAction.target, BitVec.toNat_add, BitVec.toNat_ofNat]
    omega
  case hold | stop => exact hpc.trans (by decide)

theorem inv_sequence_of_wrote (h : s.Inv) (hrun : s.run = .running) (hpc : s.pc.toNat ≤ 4094) (hw : Wrote s s' a)
    (hd : d.Bounded) (hhold : a.isHold = true → d = .none) :
    ((s'.setOut ⟨d, a.isHold⟩).sequence s.pc a).Inv := by
  obtain ⟨hfault, hrun'⟩ := wrote_fault_run hw
  have hnone : s'.fault = none := by
    have := h.record
    rw [hfault]
    simpa [hrun] using this
  have hmemory := wrote_memory hw h.memory
  have hsaved := wrote_saved hw hpc h.saved
  have hafter := PcAction.runAfter_cases s.pc s'.run a
  rw [hrun', hrun] at hafter
  constructor
  case memory => exact hmemory
  case pcBound => exact wrote_pcBound hw hpc h.saved
  case saved => exact hsaved
  case record =>
    have : a.runAfter s.pc .running ≠ .faulted := by rcases hafter with e | e <;> simp [e]
    simp [hnone, hrun', hrun, this]
  case recordPc => simp [hnone]
  case command => exact hd
  case waiting =>
    intro hwait
    cases a <;> cases hwait
    exact ⟨hrun'.trans hrun, hhold rfl⟩

theorem inv_exec (h : s.Inv) (hrun : s.run = .running) (hpc : s.pc.toNat ≤ 4094) (he : exec i s = .next t) : t.Inv := by
  rcases exec_cases he with ⟨r, rfl⟩ | ⟨s', d, a, rfl, hw, hd, hhold⟩
  · exact inv_takeFault h r _
  · exact inv_sequence_of_wrote h hrun hpc hw hd hhold

/-- Settles O60: each way a step can go keeps the invariant, and the bound on the saved addresses is what bounds `pc`
after a return. -/
theorem everyStepKeepsTheInvariant : Obligations.EveryStepKeepsTheInvariant := by
  intro s t h hstep
  rcases step_cases hstep with ⟨-, rfl⟩ | ⟨-, -, rfl⟩ | ⟨-, -, -, rfl⟩ | ⟨hrun, hpc, i, u, -, he, rfl⟩
  · exact inv_gatedTick h
  · exact inv_endTick (inv_takeFault h _ _)
  · exact inv_endTick (inv_takeFault h _ _)
  · exact inv_endTick (inv_exec h hrun hpc he)

/-- Settles O58: the reset state has no memory cell, no saved address, no fault and no command, and its `pc` is
0x200. -/
theorem invariantHoldsAtReset : Obligations.InvariantHoldsAtReset where
  memory := rfl
  pcBound := by decide
  saved := nofun
  record := by decide
  recordPc := nofun
  command := trivial
  waiting := nofun

theorem launch_eq_some {rom : List Byte} (h : State.launch rom = some s) :
    rom.length ≤ 3584 ∧ s = State.reset.setMem (State.reset.mem.writeBytes 0x200 rom) := by
  simpa [State.launch, eq_comm] using h

/-- Settles O59: a launch state is the reset state but for its memory, and the longest image ends at 4095. -/
theorem invariantHoldsAtEveryLaunch : Obligations.InvariantHoldsAtEveryLaunch := by
  intro rom s h
  obtain ⟨hlen, rfl⟩ := launch_eq_some h
  have hwf : (State.reset.mem.writeBytes 0x200 rom).wf = true :=
    Memory.wf_writeBytes rom invariantHoldsAtReset.memory (by simp only [Config.memSize]; omega)
  exact { invariantHoldsAtReset with memory := hwf }

end Sys2Proof.Proofs.Invariant
end

section
namespace Sys2Proof.Proofs.ExecuteStage

open Sys2Proof Sys2Proof.Machine Sys2Proof.Proofs.LoadAddRandom Sys2Proof.Proofs.Alu

/-! What the execute stage can do, said once over all instructions. -/

variable {i : Instr} {s s' t : State} {d : DispCmd} {a : PcAction}

/-! ### The writes -/

/-- The writes of instruction `i`: a field changes only where `i` is one of its listed writers (10_state R22, R38;
45_index_memory R162), and `run`, the fault record and the inputs never. -/
structure Writes (i : Instr) (s s' : State) : Prop where
  regs : SameRegsBut (RegsWritten i) s s'
  index : s'.I ≠ s.I → (∃ nnn, i = .ldI nnn) ∨ (∃ x, i = .addI x) ∨ ∃ x, i = .ldGlyph x
  stack : ¬ SameStack s s' → i = .ret ∨ ∃ nnn, i = .call nnn
  delay : s'.dt ≠ s.dt → ∃ x, i = .ldDt x
  sound : s'.st ≠ s.st → ∃ x, i = .ldSt x
  bytes : SameMemOutside s.I.toNat (BytesStored i) s s'
  run : s'.run = s.run
  fault : s'.fault = s.fault
  inputs : SameInputs s s'

theorem Writes.nothing (i : Instr) (s : State) : Writes i s s where
  regs _ _ := rfl
  index h := absurd rfl h
  stack h := absurd ⟨rfl, rfl⟩ h
  delay h := absurd rfl h
  sound h := absurd rfl h
  bytes _ _ := rfl
  run := rfl
  fault := rfl
  inputs := ⟨rfl, rfl⟩

theorem Writes.registers (v : Vector Byte 16) (h : SameRegsBut (RegsWritten i) s { s with v := v }) :
    Writes i s { s with v := v } :=
  { Writes.nothing i s with regs := h }

theorem Writes.setReg {x : Reg} (hx : RegsWritten i = [x]) (b : Byte) : Writes i s (s.setReg x b) :=
  Writes.registers _ (hx ▸ sameRegsBut_setReg s x b)

theorem Writes.setFlagThenReg {x : Reg} (hx : RegsWritten i = [x, 15]) (f r : Byte) :
    Writes i s (s.setFlagThenReg x f r) :=
  Writes.registers _ (hx ▸ sameRegsBut_setFlagThenReg s x f r)

/-- A list of `x + 1` bytes reaches V[0] to V[x] and no register above. -/
theorem reg_setRegs_above {bs : List Byte} {x k : Reg} (hlen : bs.length = x.val + 1) (hk : x < k) :
    (s.setRegs bs).reg k = s.reg k := by
  have hout : bs.length ≤ k.val := hlen ▸ hk
  rw [State.reg_setRegs, List.getD_eq_default _ _ hout]

theorem Writes.loadRegs {bs : List Byte} {x : Reg} (hlen : bs.length = x.val + 1) :
    Writes (.loadRegs x) s (s.setRegs bs) :=
  Writes.registers _ fun _ hk => reg_setRegs_above hlen (by simpa [RegsWritten] using hk)

theorem Writes.setI (hi : (∃ nnn, i = .ldI nnn) ∨ (∃ x, i = .addI x) ∨ ∃ x, i = .ldGlyph x) (w : Word) :
    Writes i s (s.setI w) :=
  { Writes.nothing i s with index := fun _ => hi }

theorem Writes.setDt (x : Reg) (b : Byte) : Writes (.ldDt x) s (s.setDt b) :=
  { Writes.nothing (.ldDt x) s with delay := fun _ => ⟨x, rfl⟩ }

theorem Writes.setSt (x : Reg) (b : Byte) : Writes (.ldSt x) s (s.setSt b) :=
  { Writes.nothing (.ldSt x) s with sound := fun _ => ⟨x, rfl⟩ }

theorem Writes.store {bs : List Byte} (hlen : bs.length = BytesStored i) :
    Writes i s (s.setMem (s.mem.writeBytes s.I.toNat bs)) :=
  { Writes.nothing i s with bytes := fun _ h => Memory.read_writeBytes_outside s.mem bs (hlen ▸ h) }

theorem Writes.callStack (hi : i = .ret ∨ ∃ nnn, i = .call nnn) (slots : Vector Word 16) (depth : Fin 17) :
    Writes i s { s with stack := slots, sp := depth } :=
  { Writes.nothing i s with stack := fun _ => hi }

/-! ### The faults: the range check of the four instructions that access memory is that of 20_memory R51 -/

section Ranges

variable (s : State)

theorem executeFault_drw (x y : Reg) (n : Count) :
    ExecuteFault (.drw x y n) s = if accessInRange s.I.toNat n.val then none else some .memoryOutOfRange := by
  have : accessInRange s.I.toNat n.val ↔ ¬ (1 ≤ n.val ∧ 4095 < s.I.toNat + n.val - 1) := by
    rw [accessInRange_iff, Config.memSize]; omega
  simp only [ExecuteFault, this, ite_not]

theorem executeFault_storeBcd (x : Reg) :
    ExecuteFault (.storeBcd x) s = if accessInRange s.I.toNat 3 then none else some .memoryOutOfRange := by
  have : accessInRange s.I.toNat 3 ↔ ¬ 4093 < s.I.toNat := by
    rw [accessInRange_iff, Config.memSize]; omega
  simp only [ExecuteFault, this, ite_not]

theorem accessInRange_eq_false {a n : Nat} (hn : n ≠ 0) (h : 4096 < a + n) : accessInRange a n = false := by
  rw [Bool.eq_false_iff, Ne, accessInRange_iff, Config.memSize]; omega

theorem accessInRange_succ_iff (a n : Nat) : accessInRange a (n + 1) ↔ ¬ 4095 < a + n := by
  rw [accessInRange_iff, Config.memSize]; omega

theorem executeFault_storeRegs (x : Reg) :
    ExecuteFault (.storeRegs x) s = if accessInRange s.I.toNat (x.val + 1) then none else some .memoryOutOfRange := by
  simp only [ExecuteFault, accessInRange_succ_iff, ite_not]

theorem executeFault_loadRegs (x : Reg) :
    ExecuteFault (.loadRegs x) s = if accessInRange s.I.toNat (x.val + 1) then none else some .memoryOutOfRange := by
  simp only [ExecuteFault, accessInRange_succ_iff, ite_not]

end Ranges

/-! ### The effect -/

/-- The execute stage of `i` completes in `s`: it does not fault, the outputs are those of the listed instructions
(00_scope R15), and the sequencer halts exactly on a 0NNN and on a redirect to the instruction's own address
(60_exceptions R210). -/
structure Completes (i : Instr) (s s' : State) (d : DispCmd) (a : PcAction) : Prop where
  noFault : ExecuteFault i s = none
  writes : Writes i s s'
  clear : d = .clear → i = .cls
  draw : ∀ px py rows, d = .draw px py rows → ∃ x y n, i = .drw x y n
  wait : a.isHold = true → (∃ x, i = .waitKey x) ∧ s.input.keyEvent = none
  halts : a.runAfter s.pc .running = .halted ↔ (∃ nnn, i = .sys nnn) ∨ RedirectTarget i s = some s.pc

/-- Instruction `i` is neither the shutdown nor a redirect of `pc`, so it never halts. -/
def FallsOn (i : Instr) (s : State) : Prop := (∀ nnn, i ≠ .sys nnn) ∧ RedirectTarget i s = none

theorem not_halts_of_fallsOn (hi : FallsOn i s) : ¬ ((∃ nnn, i = .sys nnn) ∨ RedirectTarget i s = some s.pc) := by
  obtain ⟨hsys, hredirect⟩ := hi
  rintro (⟨nnn, rfl⟩ | h)
  · exact hsys nnn rfl
  · rw [hredirect] at h; cases h

theorem Completes.skipIf (c : Bool) (hi : FallsOn i s) (hf : ExecuteFault i s = none) (hw : Writes i s s') :
    Completes i s s' .none (skipIf c) where
  noFault := hf
  writes := hw
  clear := nofun
  draw _ _ _ h := nomatch h
  wait := by simp
  halts := by simpa using not_halts_of_fallsOn hi

/-- NEXT is the skip whose condition fails. -/
theorem Completes.next (hi : FallsOn i s) (hf : ExecuteFault i s = none) (hw : Writes i s s') :
    Completes i s s' .none .next := Completes.skipIf false hi hf hw

theorem Completes.goto {p : Word} (hp : RedirectTarget i s = some p) (hsys : ∀ nnn, i ≠ .sys nnn)
    (hf : ExecuteFault i s = none) (hw : Writes i s s') : Completes i s s' .none (.goto p) where
  noFault := hf
  writes := hw
  clear := nofun
  draw _ _ _ h := nomatch h
  wait := nofun
  halts := by simp [PcAction.runAfter, hp, hsys]

theorem Completes.sys (nnn : Addr12) (s : State) : Completes (.sys nnn) s s .none .stop where
  noFault := rfl
  writes := Writes.nothing _ s
  clear := nofun
  draw _ _ _ h := nomatch h
  wait := nofun
  halts := ⟨fun _ => .inl ⟨nnn, rfl⟩, fun _ => rfl⟩

theorem Completes.cls (s : State) : Completes .cls s s .clear .next :=
  have hi : FallsOn .cls s := ⟨nofun, rfl⟩
  { Completes.next hi rfl (Writes.nothing .cls s) with clear := fun _ => rfl, draw := fun _ _ _ h => nomatch h }

theorem Completes.drw {x y : Reg} {n : Count} (hf : ExecuteFault (.drw x y n) s = none) (px py : Byte)
    (rows : List Byte) : Completes (.drw x y n) s s (.draw px py rows) .next :=
  have hi : FallsOn (.drw x y n) s := ⟨nofun, rfl⟩
  { Completes.next hi hf (Writes.nothing _ s) with
    clear := nofun, draw := fun _ _ _ _ => ⟨x, y, n, rfl⟩ }

theorem Completes.waiting (x : Reg) (h : s.input.keyEvent = none) : Completes (.waitKey x) s s .none .hold where
  noFault := rfl
  writes := Writes.nothing _ s
  clear := nofun
  draw _ _ _ h := nomatch h
  wait _ := ⟨⟨x, rfl⟩, h⟩
  halts := by simp [PcAction.runAfter, RedirectTarget]

/-- An effect is one that `i` can have in `s`: a raise exactly where 60_exceptions lists one, else writes, a command and
a `pc_action` of the instruction. -/
def Meets (i : Instr) (s : State) : Effect → Prop
  | .raised r => ExecuteFault i s = some r.cause
  | .done s' d a => Completes i s s' d a

theorem meets_storeAtI {bs : List Byte} (hi : FallsOn i s) (hlen : bs.length = BytesStored i)
    (hf : ExecuteFault i s = if accessInRange s.I.toNat (BytesStored i) then none else some .memoryOutOfRange) :
    Meets i s (storeAtI s bs) := by
  cases hr : accessInRange s.I.toNat bs.length <;> rw [← hlen, hr] at hf
  case false =>
    rw [storeAtI, State.memWrite_error hr]
    exact hf
  case true =>
    rw [storeAtI, State.memWrite_ok hr]
    exact Completes.next hi hf (Writes.store hlen)

/-- The next state of every instruction comes from an effect that the instruction can have. -/
theorem exists_effect (i : Instr) (s : State) : ∃ e, exec i s = conclude i s e ∧ Meets i s e := by
  cases i
  case cls => exact ⟨_, rfl, Completes.cls s⟩
  case sys nnn => exact ⟨_, rfl, Completes.sys nnn s⟩
  case jp nnn => exact ⟨_, rfl, Completes.goto rfl nofun rfl (Writes.nothing _ s)⟩
  case jpV0 nnn =>
    have htarget : BitVec.ofNat 16 (nnn.toNat + (s.reg 0).toNat) = zextAddr nnn + zextByte (s.reg 0) :=
      BitVec.ofNat_add _ _
    exact ⟨_, rfl, Completes.goto (congrArg some htarget) nofun rfl (Writes.nothing _ s)⟩
  case ret =>
    refine ⟨_, rfl, ?_⟩
    by_cases h : s.sp.val = 0
    · rw [State.pop_empty h]
      exact if_pos (Fin.ext h)
    · have hsp : s.sp ≠ 0 := fun e => h (congrArg Fin.val e)
      rw [State.pop_ok h]
      exact Completes.goto (if_neg hsp) nofun (if_neg hsp) (Writes.callStack (.inl rfl) s.stack _)
  case call nnn =>
    refine ⟨_, rfl, ?_⟩
    by_cases h : s.sp.val < 16
    · have hsp : s.sp ≠ 16 := fun e => absurd (congrArg Fin.val e) (Nat.ne_of_lt h)
      rw [State.push_ok _ h]
      exact Completes.goto (if_neg hsp) nofun (if_neg hsp) (Writes.callStack (.inr ⟨nnn, rfl⟩) _ _)
    · have hfull : s.sp.val = 16 := by omega
      rw [State.push_full hfull]
      exact if_pos (Fin.ext hfull)
  case seImm | sneImm | seReg | sneReg | skp | sknp =>
    exact ⟨_, rfl, Completes.skipIf _ ⟨nofun, rfl⟩ rfl (Writes.nothing _ s)⟩
  case ldImm | addImm | rnd | ldReg | orReg | andReg | xorReg | ldFromDt =>
    exact ⟨_, rfl, Completes.next ⟨nofun, rfl⟩ rfl (Writes.setReg rfl _)⟩
  case addReg | subReg | shr | subnReg | shl =>
    exact ⟨_, rfl, Completes.next ⟨nofun, rfl⟩ rfl (Writes.setFlagThenReg rfl _ _)⟩
  case waitKey x =>
    refine ⟨_, rfl, ?_⟩
    cases h : s.input.keyEvent with
    | none => exact Completes.waiting x h
    | some k => exact Completes.next ⟨nofun, rfl⟩ rfl (Writes.setReg rfl k)
  case ldI nnn => exact ⟨_, rfl, Completes.next ⟨nofun, rfl⟩ rfl (Writes.setI (.inl ⟨nnn, rfl⟩) _)⟩
  case addI x => exact ⟨_, rfl, Completes.next ⟨nofun, rfl⟩ rfl (Writes.setI (.inr (.inl ⟨x, rfl⟩)) _)⟩
  case ldGlyph x => exact ⟨_, rfl, Completes.next ⟨nofun, rfl⟩ rfl (Writes.setI (.inr (.inr ⟨x, rfl⟩)) _)⟩
  case ldDt x => exact ⟨_, rfl, Completes.next ⟨nofun, rfl⟩ rfl (Writes.setDt x _)⟩
  case ldSt x => exact ⟨_, rfl, Completes.next ⟨nofun, rfl⟩ rfl (Writes.setSt x _)⟩
  case storeBcd x => exact ⟨_, rfl, meets_storeAtI ⟨nofun, rfl⟩ rfl (executeFault_storeBcd s x)⟩
  case storeRegs x =>
    exact ⟨_, rfl, meets_storeAtI ⟨nofun, rfl⟩ (State.length_regsUpTo s x) (executeFault_storeRegs s x)⟩
  case loadRegs x =>
    refine ⟨_, rfl, ?_⟩
    have hf := executeFault_loadRegs s x
    cases h : accessInRange s.I.toNat (x.val + 1) <;> rw [h] at hf
    case false =>
      rw [State.memRead_error h]
      exact hf
    case true =>
      rw [State.memRead_ok h]
      exact Completes.next ⟨nofun, rfl⟩ hf (Writes.loadRegs (Memory.length_readBytes _ _ _))
  case drw x y n =>
    refine ⟨_, rfl, ?_⟩
    have hf := executeFault_drw s x y n
    cases h : accessInRange s.I.toNat n.val <;> rw [h] at hf
    case false =>
      rw [State.memRead_error h]
      exact hf
    case true =>
      rw [State.memRead_ok h]
      exact Completes.drw hf _ _ _

/-- The next state of an instruction: a listed fault taken with the instruction's word, or the writes of the instruction
and the sequencer from `pc`. -/
theorem exec_faults_or_completes (h : exec i s = .next t) :
    (∃ r, t = s.takeFault r (encode i) ∧ ExecuteFault i s = some r.cause) ∨
    ∃ s' d a, t = (s'.setOut ⟨d, a.isHold⟩).sequence s.pc a ∧ Completes i s s' d a := by
  obtain ⟨e, he, hmeets⟩ := exists_effect i s
  obtain rfl : e.apply i s = t := Host.Outcome.next.inj (he.symm.trans h)
  cases e with
  | raised r => exact .inl ⟨r, rfl, hmeets⟩
  | done s' d a => exact .inr ⟨s', d, a, rfl, hmeets⟩

/-! ### The rules over all instructions -/

theorem exists_exec_next (i : Instr) (s : State) : ∃ t, exec i s = .next t := by
  obtain ⟨e, he, -⟩ := exists_effect i s
  exact ⟨_, he⟩

/-- An instruction that completes does not end FAULTED, whatever the sequencer does. -/
theorem Completes.run_ne_faulted (h : Completes i s s' d a) (hrun : s.run ≠ .faulted) :
    ((s'.setOut ⟨d, a.isHold⟩).sequence s.pc a).run ≠ .faulted := by
  rw [State.sequence_run, State.setOut_run, h.writes.run]
  rcases PcAction.runAfter_cases s.pc s.run a with e | e <;> simp [e, hrun]

/-- Settles O18: an effect that raises does so where the table lists it, and an effect that completes leaves a `run`
that is not FAULTED. -/
theorem executeFaultsExactlyWhenListed : Obligations.ExecuteFaultsExactlyWhenListed := by
  intro i s t hrun h
  rcases exec_faults_or_completes h with ⟨r, rfl, hf⟩ | ⟨s', d, a, rfl, hc⟩
  · refine ⟨by simp [hf], fun c hcause => ⟨_, rfl, ?_⟩⟩
    exact Option.some.inj (hf.symm.trans hcause)
  · have hne := hc.run_ne_faulted hrun
    have hnone := hc.noFault
    exact ⟨iff_of_false hne (not_not_intro hnone), fun c hcause => by simp [hnone] at hcause⟩

/-- An instruction that faults is no shutdown and redirects nothing. -/
theorem fallsOn_of_executeFault {c : Fault} (h : ExecuteFault i s = some c) : FallsOn i s := by
  cases i
  case ret | call =>
    refine ⟨nofun, if_pos (by_contra fun hsp => ?_)⟩
    simp [ExecuteFault, hsp] at h
  case drw | storeBcd | storeRegs | loadRegs => exact ⟨nofun, rfl⟩
  all_goals cases h

/-- Settles O19: the sequencer of an instruction that completes halts exactly there, and FAULTED is not HALTED. -/
theorem haltsExactlyOnShutdownAndNonProgress : Obligations.HaltsExactlyOnShutdownAndNonProgress := by
  intro i s t hrun h
  rcases exec_faults_or_completes h with ⟨r, rfl, hf⟩ | ⟨s', d, a, rfl, hc⟩
  · exact iff_of_false (by simp) (not_halts_of_fallsOn (fallsOn_of_executeFault hf))
  · rw [State.sequence_run, State.setOut_run, hc.writes.run, hrun]
    exact hc.halts

/-- Settles O53: a fault writes no register, and an effect that completes writes the listed ones. -/
theorem onlyListedRegistersAreWritten : Obligations.OnlyListedRegistersAreWritten := by
  intro i s t h
  rcases exec_faults_or_completes h with ⟨r, rfl, -⟩ | ⟨s', d, a, rfl, hc⟩
  · exact fun k _ => State.reg_congr rfl k
  · exact hc.writes.regs

/-- Settles O54: a fault writes `run` and the record alone, and an effect that completes has the listed writers. -/
theorem specialRegistersHaveTheListedWriters : Obligations.SpecialRegistersHaveTheListedWriters := by
  intro i s t h
  rcases exec_faults_or_completes h with ⟨r, rfl, -⟩ | ⟨s', d, a, rfl, hc⟩
  · exact ⟨absurd rfl, absurd ⟨rfl, rfl⟩, absurd rfl, absurd rfl, fun _ => rfl, rfl, rfl⟩
  · obtain ⟨-, hindex, hstack, hdelay, hsound, -, -, hfault, hinputs⟩ := hc.writes
    exact ⟨hindex, hstack, hdelay, hsound, absurd hfault, hinputs⟩

/-- Settles O55: a fault stores no byte, and an effect that completes stores the listed ones. -/
theorem memoryChangesOnlyWhereStoredThroughI : Obligations.MemoryChangesOnlyWhereStoredThroughI := by
  intro i s t h
  rcases exec_faults_or_completes h with ⟨r, rfl, -⟩ | ⟨s', d, a, rfl, hc⟩
  · exact fun _ _ => rfl
  · exact hc.writes.bytes

/-- Settles O56: a fault issues nothing, and the outputs of an effect that completes are its command and whether it
holds. -/
theorem outputsComeFromTheListedInstructions : Obligations.OutputsComeFromTheListedInstructions := by
  intro i s t h
  rcases exec_faults_or_completes h with ⟨r, rfl, -⟩ | ⟨s', d, a, rfl, hc⟩
  · simp [TickOut.idle]
  · exact ⟨hc.clear, hc.draw, hc.wait⟩

/-- Settles O57: the effect of such an instruction is a function of the other fields; where it has cases, the condition
does not read the inputs either. -/
theorem onlyFourInstructionsReadTheInputs : Obligations.OnlyFourInstructionsReadTheInputs := by
  intro i s inputs tick hskp hsknp hwait hrnd
  cases i
  case skp x => exact absurd rfl (hskp x)
  case sknp x => exact absurd rfl (hsknp x)
  case waitKey x => exact absurd rfl (hwait x)
  case rnd x nn => exact absurd rfl (hrnd x nn)
  case ret =>
    by_cases h : s.sp.val = 0
    · exact ⟨_, exec_ret_empty h, exec_ret_empty h⟩
    · exact ⟨_, exec_ret_ok h, exec_ret_ok h⟩
  case call nnn =>
    by_cases h : s.sp.val < 16
    · exact ⟨_, exec_call_ok nnn h, exec_call_ok (s := { s with inputs := inputs, tick := tick }) nnn h⟩
    · have hfull : s.sp.val = 16 := by omega
      exact ⟨_, exec_call_full nnn hfull, exec_call_full nnn hfull⟩
  case drw x y n =>
    cases h : accessInRange s.I.toNat n.val with
    | false => exact ⟨_, exec_drw_error x y n h, exec_drw_error x y n h⟩
    | true => exact ⟨_, exec_drw_ok x y n h, exec_drw_ok x y n h⟩
  case loadRegs x =>
    cases h : accessInRange s.I.toNat (x.val + 1) with
    | false => exact ⟨_, exec_loadRegs_error x h, exec_loadRegs_error x h⟩
    | true => exact ⟨_, exec_loadRegs_ok x h, exec_loadRegs_ok x h⟩
  case storeBcd x =>
    cases h : accessInRange s.I.toNat (decimalDigits (s.reg x)).length with
    | false => exact ⟨_, conclude_storeAtI_error _ h, conclude_storeAtI_error _ h⟩
    | true => exact ⟨_, conclude_storeAtI_ok _ h, conclude_storeAtI_ok _ h⟩
  case storeRegs x =>
    cases h : accessInRange s.I.toNat (s.regsUpTo x).length with
    | false => exact ⟨_, conclude_storeAtI_error _ h, conclude_storeAtI_error _ h⟩
    | true => exact ⟨_, conclude_storeAtI_ok _ h, conclude_storeAtI_ok _ h⟩
  all_goals exact ⟨_, rfl, rfl⟩

end Sys2Proof.Proofs.ExecuteStage
end

section
namespace Sys2Proof.Proofs.Engine

open Sys2Proof Sys2Proof.Machine Sys2Proof.Proofs.ExecuteStage

variable {i : Instr} {s t : State} {w : Word}

/-! ### The ways a step goes, from the state it begins in (40_engine_cycle R90) -/

theorem step_gated (hrun : s.run ≠ .running) : step s = .next s.gatedTick := by
  unfold step
  split
  case h_3 h => exact absurd h hrun
  all_goals rfl

theorem step_fetchFault (hrun : s.run = .running) (hpc : 4094 < s.pc.toNat) :
    step s = .next (s.fetchFault ⟨.memoryOutOfRange, firstOutOfRange s.pc⟩).endTick := by
  simp only [step, hrun, State.fetch_error hpc]

theorem step_decodeFault {e : DecodeReject} (hrun : s.run = .running) (hpc : s.pc.toNat ≤ 4094)
    (hd : decode s.wordAtPc = .error e) : step s = .next (s.decodeFault s.wordAtPc).endTick := by
  simp only [step, hrun, State.fetch_ok hpc, hd]

theorem step_exec (hrun : s.run = .running) (hpc : s.pc.toNat ≤ 4094) (hd : decode s.wordAtPc = .ok i)
    (he : exec i s = .next t) : step s = .next t.endTick := by
  simp only [step, hrun, State.fetch_ok hpc, hd, he]

/-! ### The end of a tick -/

theorem countDownByte_eq_ofNat (b : Byte) : countDownByte b = BitVec.ofNat 8 (b.toNat - 1) := by
  have := b.isLt
  apply BitVec.eq_of_toNat_eq
  rw [countDownByte_toNat, BitVec.toNat_ofNat]
  omega

theorem endTick_eq (t : State) :
    t.endTick =
      { t with
        dt := if t.run = .faulted then t.dt else BitVec.ofNat 8 (t.dt.toNat - 1),
        st := if t.run = .faulted then t.st else BitVec.ofNat 8 (t.st.toNat - 1),
        inputs := t.inputs.tail,
        tick := t.tick + 1 } := by
  by_cases h : t.run = .faulted
  · simp only [State.endTick_of_faulted h, if_pos h, State.nextInput]
  · simp only [State.endTick_of_ne h, if_neg h, State.nextInput, State.countDown, countDownByte_eq_ofNat]

@[simp] theorem endTick_run (t : State) : t.endTick.run = t.run := by rw [endTick_eq]
@[simp] theorem endTick_pc (t : State) : t.endTick.pc = t.pc := by rw [endTick_eq]
@[simp] theorem endTick_fault (t : State) : t.endTick.fault = t.fault := by rw [endTick_eq]
@[simp] theorem endTick_inputs (t : State) : t.endTick.inputs = t.inputs.tail := by rw [endTick_eq]
@[simp] theorem endTick_tick (t : State) : t.endTick.tick = t.tick + 1 := by rw [endTick_eq]

/-- In a tick that did not fault both timers count. -/
theorem endTick_timers (h : t.run ≠ .faulted) :
    t.endTick.dt.toNat = t.dt.toNat - 1 ∧ t.endTick.st.toNat = t.st.toNat - 1 := by
  rw [State.endTick_of_ne h]
  exact ⟨countDownByte_toNat t.dt, countDownByte_toNat t.st⟩

/-! ### Fault entry -/

/-- Fault entry leaves the rest of the block alone (60_exceptions R206, R207). -/
theorem faultsWith_takeFault (s : State) (r : Raise) (w : Word) :
    FaultsWith ⟨r.cause, s.pc, w, r.addr⟩ s (s.takeFault r w) :=
  ⟨rfl, rfl, rfl, fun k _ => State.reg_congr rfl k, rfl, ⟨rfl, rfl⟩, ⟨rfl, rfl⟩, fun _ => rfl, rfl, rfl⟩

/-- The end of a tick adds nothing to a fault: the timers do not count (40_engine_cycle R101). -/
theorem faultsWith_endTick {r : FaultRecord} (h : FaultsWith r s t) : FaultsWith r s t.endTick := by
  rw [State.endTick_of_faulted h.1]
  exact h

/-- Settles O15: the fetch is the first stage after the gate, and its fault is recorded with the word 0. -/
theorem fetchAbove4094Faults : Obligations.FetchAbove4094Faults := fun s hrun hpc =>
  ⟨_, step_fetchFault hrun hpc, faultsWith_endTick (faultsWith_takeFault s _ _)⟩

/-- Settles O11: with the word decoded, the step is the execute stage and the end of the tick. -/
theorem stepRunsTheDecodedInstruction : Obligations.StepRunsTheDecodedInstruction := fun _ t _ hrun hpc hd he =>
  (step_exec hrun hpc hd he).trans (congrArg Host.Outcome.next (endTick_eq t))

/-- Settles O13: the gate, the range of `pc` and the decoder part the states into four kinds, and each kind has its next
state. -/
theorem everyStateHasANextState : Obligations.EveryStateHasANextState := by
  intro s
  by_cases hrun : s.run = .running
  case neg => exact ⟨_, step_gated hrun⟩
  by_cases hpc : s.pc.toNat ≤ 4094
  case neg => exact ⟨_, step_fetchFault hrun (Nat.lt_of_not_le hpc)⟩
  cases hd : decode s.wordAtPc with
  | error e => exact ⟨_, step_decodeFault hrun hpc hd⟩
  | ok i =>
    obtain ⟨t, he⟩ := exists_exec_next i s
    exact ⟨_, step_exec hrun hpc hd he⟩

/-- No stage before the end of the tick uses an input record. -/
theorem sameInputs_exec (he : exec i s = .next t) : SameInputs s t := by
  rcases exec_faults_or_completes he with ⟨r, rfl, -⟩ | ⟨s', d, a, rfl, hc⟩
  · exact ⟨rfl, rfl⟩
  · exact hc.writes.inputs

theorem step_uses_one_input (h : step s = .next t) : t.inputs = s.inputs.tail ∧ t.tick = s.tick + 1 := by
  rcases step_cases h with ⟨-, rfl⟩ | ⟨-, -, rfl⟩ | ⟨-, -, -, rfl⟩ | ⟨-, -, i, u, -, he, rfl⟩
  · exact ⟨rfl, rfl⟩
  · exact ⟨endTick_inputs _, endTick_tick _⟩
  · exact ⟨endTick_inputs _, endTick_tick _⟩
  · obtain ⟨hinputs, htick⟩ := sameInputs_exec he
    rw [endTick_inputs, endTick_tick, hinputs, htick]
    exact ⟨rfl, rfl⟩

/-- Settles O14: the record of a tick is the head of the list or the free one, and each way a step can go drops it. -/
theorem everyTickUsesOneInputRecord : Obligations.EveryTickUsesOneInputRecord :=
  ⟨fun _ _ _ h => by rw [State.input, h], fun _ h => by rw [State.input, h]; rfl, fun _ _ => step_uses_one_input⟩

/-! ### The end of a run -/

theorem sameBlock_gatedTick (s : State) : SameBlock s s.gatedTick :=
  ⟨rfl, rfl, rfl, rfl, rfl, rfl, rfl, rfl, rfl, rfl⟩

theorem sameBlock_trans {u : State} (hst : SameBlock s t) (htu : SameBlock t u) : SameBlock s u := by
  obtain ⟨h1, h2, h3, h4, h5, h6, h7, h8, h9, h10⟩ := hst
  obtain ⟨k1, k2, k3, k4, k5, k6, k7, k8, k9, k10⟩ := htu
  exact ⟨k1.trans h1, k2.trans h2, k3.trans h3, k4.trans h4, k5.trans h5, k6.trans h6, k7.trans h7, k8.trans h8,
    k9.trans h9, k10.trans h10⟩

theorem run_succ_gated (n : Nat) (hrun : s.run ≠ .running) :
    Host.Core.run Sys2Proof.core (n + 1) s = Host.Core.run Sys2Proof.core n s.gatedTick := by
  have hstep : Sys2Proof.core.step s = .next s.gatedTick := step_gated hrun
  simp only [Host.Core.run, hstep]

/-- Settles O12: one gated tick after the other, since a gated tick leaves `run` as it is; the last of them issues
nothing. -/
theorem haltedAndFaultedStatesAreFrozen : Obligations.HaltedAndFaultedStatesAreFrozen := by
  intro n
  induction n with
  | zero => exact fun s _ => ⟨s, rfl, ⟨rfl, rfl, rfl, rfl, rfl, rfl, rfl, rfl, rfl, rfl⟩, nofun⟩
  | succ n ih =>
    intro s hrun
    obtain ⟨t, hn, hblock, hissues⟩ := ih s.gatedTick hrun
    refine ⟨t, (run_succ_gated n hrun).trans hn, sameBlock_trans (sameBlock_gatedTick s) hblock, fun _ => ?_⟩
    cases n with
    | zero =>
      obtain rfl : s.gatedTick = t := Host.Outcome.next.inj hn
      exact ⟨rfl, rfl⟩
    | succ n => exact hissues n.succ_pos

/-! ### The faults of a step -/

/-- An instruction that ends FAULTED in RUNNING took a listed fault. -/
theorem exec_faulted (hrun : s.run = .running) (he : exec i s = .next t) (hf : t.run = .faulted) :
    ∃ r, t = s.takeFault r (encode i) ∧ ExecuteFault i s = some r.cause := by
  rcases exec_faults_or_completes he with h | ⟨s', d, a, rfl, hc⟩
  · exact h
  · exact absurd hf (hc.run_ne_faulted (by simp [hrun]))

/-- Settles O17: the record of the decode stage holds the fetched word, and the word the execute stage rebuilds from the
instruction is the fetched one, since encoding undoes decoding. -/
theorem faultRecordHoldsTheFetchedWord : Obligations.FaultRecordHoldsTheFetchedWord := by
  intro s t w hrun hfetch hstep hf
  obtain ⟨hpc, rfl⟩ := State.fetch_eq_ok hfetch
  rcases step_cases hstep with ⟨hne, -⟩ | ⟨-, hpc', -⟩ | ⟨-, -, -, rfl⟩ | ⟨-, -, i, u, hd, he, rfl⟩
  · exact absurd hrun hne
  · omega
  · exact ⟨endTick_pc _, _, endTick_fault _, rfl, rfl⟩
  · obtain ⟨r, rfl, -⟩ := exec_faulted hrun he (by simpa using hf)
    exact ⟨endTick_pc _, _, endTick_fault _, (RoundTrip.encode_of_decode hd).2, rfl⟩

/-- The decode stage alone raises DecodeError. -/
theorem executeFault_ne_decodeError (i : Instr) (s : State) : ExecuteFault i s ≠ some .decodeError := by
  cases i <;> simp [ExecuteFault]

end Sys2Proof.Proofs.Engine
end

section
namespace Sys2Proof.Proofs.IllegalWords

open Sys2Proof Sys2Proof.Proofs.Encoding

variable {w : Word} {r : DecodeReject}

/-! What a group rejects, on the digits it looks at (30_encoding R76, R78). -/

theorem decodeGroup8_eq_error_iff :
    decodeGroup8 w = .error r ↔ r = .illegalWord w ∧ slice w 3 0 ∈ [0x8, 0x9, 0xA, 0xB, 0xC, 0xD, 0xF] := by
  have hlt : slice w 3 0 < 16 := by rw [lowNibble_eq]; omega
  unfold decodeGroup8
  split
  case h_10 =>
    simp only [imp_false] at *
    have hn : slice w 3 0 ∈ [0x8, 0x9, 0xA, 0xB, 0xC, 0xD, 0xF] := by
      simp only [List.mem_cons, List.not_mem_nil, or_false]
      omega
    simp [hn, eq_comm (a := r)]
  all_goals
    next hn => simp [hn]

theorem decodeGroupE_eq_error_iff :
    decodeGroupE w = .error r ↔ r = .illegalWord w ∧ slice w 7 0 ∉ [0x9E, 0xA1] := by
  unfold decodeGroupE
  split
  case h_3 =>
    simp only [imp_false] at *
    simp [*, eq_comm (a := r)]
  all_goals
    next hnn => simp [hnn]

theorem decodeGroupF_eq_error_iff :
    decodeGroupF w = .error r ↔
      r = .illegalWord w ∧ slice w 7 0 ∉ [0x07, 0x0A, 0x15, 0x18, 0x1E, 0x29, 0x33, 0x55, 0x65] := by
  unfold decodeGroupF
  split
  case h_10 =>
    simp only [imp_false] at *
    simp [*, eq_comm (a := r)]
  all_goals
    next hnn => simp [hnn]

/-- The table of illegal words on the fields the decoder reads. -/
theorem illegalWord_iff :
    IllegalWord w ↔
      (opField w = 5 ∧ slice w 3 0 ≠ 0) ∨
      (opField w = 8 ∧ slice w 3 0 ∈ [0x8, 0x9, 0xA, 0xB, 0xC, 0xD, 0xF]) ∨ (opField w = 9 ∧ slice w 3 0 ≠ 0) ∨
      (opField w = 0xE ∧ slice w 7 0 ∉ [0x9E, 0xA1]) ∨
      (opField w = 0xF ∧ slice w 7 0 ∉ [0x07, 0x0A, 0x15, 0x18, 0x1E, 0x29, 0x33, 0x55, 0x65]) := by
  rw [opField_eq, lowNibble_eq, lowByte_eq, IllegalWord]

/-- The decoder rejects the words of the table, and calls each of them illegal. -/
theorem decode_eq_error_iff : decode w = .error r ↔ r = .illegalWord w ∧ IllegalWord w := by
  have hlt := opField_lt w
  unfold decode
  split
  case isTrue hw => subst hw; simp [IllegalWord]
  split
  case isTrue hw => subst hw; simp [IllegalWord]
  -- Groups 5 and 9, then 8, E and F, then no group at all; the other groups reject nothing.
  split <;> rw [illegalWord_iff]
  case h_6 hop | h_10 hop => split <;> simp [*, eq_comm (a := r)]
  case h_9 hop => simp [decodeGroup8_eq_error_iff, hop]
  case h_15 hop => simp [decodeGroupE_eq_error_iff, hop]
  case h_16 hop => simp [decodeGroupF_eq_error_iff, hop]
  case h_17 =>
    simp only [imp_false] at *
    omega
  all_goals
    next hop => simp [hop]

/-- Settles O8: the decoder's one reason for a rejection is the word itself. -/
theorem illegalWordsAreExactlyTheTables : Obligations.IllegalWordsAreExactlyTheTables := fun _ =>
  ⟨decode_eq_error_iff.trans (and_iff_right rfl),
    ⟨fun ⟨_, hr⟩ => (decode_eq_error_iff.mp hr).2, fun h => ⟨_, decode_eq_error_iff.mpr ⟨rfl, h⟩⟩⟩⟩

end Sys2Proof.Proofs.IllegalWords
end

section
namespace Sys2Proof.Proofs.WholeTick

open Sys2Proof Sys2Proof.Machine Sys2Proof.Proofs.Engine Sys2Proof.Proofs.IllegalWords

/-- Settles O16: the decode stage faults on the words the decoder rejects, and no other stage records a DecodeError. -/
theorem decodeErrorExactlyForFetchedIllegalWords : Obligations.DecodeErrorExactlyForFetchedIllegalWords := by
  refine ⟨fun s hrun hpc hw => ?_, fun s t r hrun hstep hf hr hcause => ?_⟩
  · have hd : decode s.wordAtPc = .error (.illegalWord s.wordAtPc) := decode_eq_error_iff.mpr ⟨rfl, hw⟩
    exact ⟨_, step_decodeFault hrun hpc hd, faultsWith_endTick (faultsWith_takeFault s ⟨.decodeError, 0#16⟩ _)⟩
  · rcases step_cases hstep with ⟨hne, -⟩ | ⟨-, -, rfl⟩ | ⟨-, hpc, ⟨e, hd⟩, -⟩ | ⟨-, hpc, i, u, -, he, rfl⟩
    · exact absurd hrun hne
    · obtain rfl : _ = r := Option.some.inj ((endTick_fault _).symm.trans hr)
      cases hcause
    · exact ⟨hpc, (decode_eq_error_iff.mp hd).2⟩
    · obtain ⟨r', rfl, hlisted⟩ := exec_faulted hrun he (by simpa using hf)
      obtain rfl : _ = r := Option.some.inj ((endTick_fault _).symm.trans hr)
      exact absurd (hlisted.trans (congrArg some hcause)) (executeFault_ne_decodeError i s)

theorem delay_exec_of_ne {i : Instr} {s t : State} (hi : ∀ x, i ≠ .ldDt x) (he : exec i s = .next t) : t.dt = s.dt := by
  obtain ⟨-, -, hdelay, -⟩ := ExecuteStage.specialRegistersHaveTheListedWriters i s t he
  exact by_contra fun hne => (hdelay hne).elim hi

theorem sound_exec_of_ne {i : Instr} {s t : State} (hi : ∀ x, i ≠ .ldSt x) (he : exec i s = .next t) : t.st = s.st := by
  obtain ⟨-, -, -, hsound, -⟩ := ExecuteStage.specialRegistersHaveTheListedWriters i s t he
  exact by_contra fun hne => (hsound hne).elim hi

/-- Settles O52: the execute stage leaves each timer as it was or as its one writer set it, and the end of a tick that
did not fault counts both, whatever the sequencer did. -/
theorem timersCountOnceInEveryRunningTick : Obligations.TimersCountOnceInEveryRunningTick := by
  intro s t i hrun hpc hd hstep hf
  obtain ⟨u, he⟩ := ExecuteStage.exists_exec_next i s
  obtain rfl : u.endTick = t := Host.Outcome.next.inj ((step_exec hrun hpc hd he).symm.trans hstep)
  obtain ⟨hdt, hst⟩ := endTick_timers (t := u) (by simpa using hf)
  rw [hdt, hst]
  constructor
  · split
    case h_1 => cases he; rfl
    case h_2 hi => rw [delay_exec_of_ne hi he]
  · split
    case h_1 => cases he; rfl
    case h_2 hi => rw [sound_exec_of_ne hi he]

end Sys2Proof.Proofs.WholeTick
end

section
namespace Sys2Proof.Proofs.Boundary

open Sys2Proof Sys2Proof.Machine

/-- Settles O1: the reset state is written out in the model, a reset is an event in every state, and a gated tick leaves
`run` as it is. -/
theorem resetGivesTheResetValues : Obligations.ResetGivesTheResetValues := by
  refine ⟨by decide, rfl, rfl, rfl, rfl, rfl, rfl, rfl, fun _ => rfl, fun _ => rfl, fun s t inp hrun hstep => ?_⟩
  have hgated : s.tickWith inp = .next { s with inputs := [inp] }.gatedTick := Engine.step_gated hrun
  obtain rfl := Host.Outcome.next.inj (hgated.symm.trans hstep)
  rfl

/-- Settles O4: the status outputs are a case split on the fault record. -/
theorem statusOutputsShowRunFaultAndTimers : Obligations.StatusOutputsShowRunFaultAndTimers := by
  intro s
  cases hf : s.fault with
  | none =>
    have hstatus : s.status = ⟨s.run.code, 0#3, 0#16, 0#16, 0#16, s.dt, s.st⟩ := by rw [State.status, hf]
    rw [hstatus]
    exact ⟨rfl, rfl, by cases s.run <;> rfl, fun _ => rfl, nofun⟩
  | some r =>
    have hstatus : s.status = ⟨s.run.code, r.cause.code, r.pc, r.word, r.addr, s.dt, s.st⟩ := by rw [State.status, hf]
    rw [hstatus]
    refine ⟨rfl, rfl, by cases s.run <;> rfl, nofun, ?_⟩
    rintro _ ⟨⟩
    exact ⟨rfl, rfl, rfl, by cases r.cause <;> rfl⟩

theorem sameMemOutside_loadByte (s : State) (addr : Addr12) (data : Byte) :
    SameMemOutside addr.toNat 1 s (s.loadByte addr data) := fun b hb =>
  Memory.read_write_ne s.mem data (by omega)

/-- Settles O3: an event of the loader port is one write to memory, guarded by the premise of R13. -/
theorem loaderPortStoresOneByteBeforeTheFirstTick : Obligations.LoaderPortStoresOneByteBeforeTheFirstTick := by
  refine fun s addr data => ⟨fun htick haddr => ?_, fun hout => if_neg (by simp only [Config.progBase]; omega)⟩
  exact ⟨s.loadByte addr data, if_pos ⟨htick, haddr⟩, Memory.read_write_same s.mem addr.toNat data,
    sameMemOutside_loadByte s addr data, rfl⟩

/-- The launch state reads the image from 0x200 up and 0 elsewhere. -/
theorem read_launch (rom : List Byte) (a : Nat) :
    (Memory.writeBytes [] 0x200 rom).read a =
      if 0x200 ≤ a ∧ a < 0x200 + rom.length then rom.getD (a - 0x200) 0#8 else 0#8 := by
  split
  case isTrue h =>
    have hk : rom[a - 0x200]? = some (rom.getD (a - 0x200) 0#8) := by
      rw [List.getD_eq_getElem?_getD, List.getElem?_eq_getElem (by omega), Option.getD_some]
    simpa [Nat.add_sub_cancel' h.1] using Memory.read_writeBytes_inside [] (a := 0x200) hk
  case isFalse h => exact Memory.read_writeBytes_outside [] rom (by omega)

/-- Settles O2: a launch writes the image into the empty memory of reset; with the empty image the word at 0x200 is 0, a
0NNN, which halts there. -/
theorem launchLoadsTheRomFrom0x200 : Obligations.LaunchLoadsTheRomFrom0x200 :=
  ⟨fun rom hlen => ⟨_, if_pos hlen, rfl, read_launch rom⟩, fun _ hlen => if_neg (Nat.not_le_of_lt hlen),
    _, _, rfl, rfl, rfl, rfl⟩

end Sys2Proof.Proofs.Boundary
end

section
namespace Sys2Proof.Proofs.RoundTrip

/-- Settles O9: each word is closed, so the decoder computes its instruction. -/
theorem wordsWrittenOutDecode : Obligations.WordsWrittenOutDecode := ⟨rfl, rfl, rfl, rfl, rfl, rfl, rfl, rfl, rfl⟩

end Sys2Proof.Proofs.RoundTrip
end

section
namespace Sys2Proof.Proofs.ControlFlow

open Sys2Proof Sys2Proof.Machine

variable {s t : State}

/-! The call stack and the instructions that use it (41_control_flow). -/

theorem exec_sys (nnn : Addr12) (s : State) :
    exec (.sys nnn) s = .next ((s.setOut ⟨.none, false⟩).sequence s.pc .stop) := rfl

/-- Settles O20: 0NNN is the action STOP and nothing else, and STOP holds `pc`. -/
theorem sysHaltsInPlace : Obligations.SysHaltsInPlace := fun nnn s =>
  ⟨_, exec_sys nnn s, rfl, rfl, sequence_frame s s.pc .stop⟩

theorem exec_jpV0 (nnn : Addr12) (s : State) :
    exec (.jpV0 nnn) s =
      .next ((s.setOut ⟨.none, false⟩).sequence s.pc (.goto (zextAddr nnn + zextByte (s.reg 0)))) := rfl

/-- Settles O24: BNNN is a bare redirect, and the sum of a 12-bit and an 8-bit number fits the 16 bits of `pc`. -/
theorem offsetJumpAddsV0 : Obligations.OffsetJumpAddsV0 := fun nnn s =>
  have htarget := offsetTarget_toNat nnn (s.reg 0)
  ⟨_, exec_jpV0 nnn s, htarget, (runAfter_goto s.pc _ s.run).trans (by rw [htarget]), sequence_frame s s.pc _⟩

/-- A push puts the address on top and leaves the other slots alone (10_state R29). -/
theorem top_push (s : State) (w : Word) (h : s.sp.val < 16) :
    ({ s with stack := s.stack.set s.sp.val w h, sp := ⟨s.sp.val + 1, Nat.succ_lt_succ h⟩ } : State).top = w := by
  simp [State.top]

/-- Settles O22: with a free slot the push succeeds, and the redirect is that of 1NNN. -/
theorem callPushesItsOwnAddress : Obligations.CallPushesItsOwnAddress := by
  intro nnn s hsp
  refine ⟨_, exec_call_ok nnn hsp, rfl, top_push s s.pc hsp, fun k hk => ?_, zextAddr_toNat nnn, ?_,
    fun k _ => State.reg_congr rfl k, rfl, ⟨rfl, rfl⟩, rfl, fun _ => rfl, ⟨rfl, rfl⟩, rfl, rfl⟩
  · exact Vector.getElem_set_ne hsp k.isLt hk.symm
  · exact (runAfter_goto s.pc _ s.run).trans (by rw [zextAddr_toNat])

/-- Settles O23: with a live slot the pop succeeds, and only the depth tells that the top is gone. -/
theorem returnLandsTwoAfterThePoppedAddress : Obligations.ReturnLandsTwoAfterThePoppedAddress := fun _ hsp =>
  have hdepth := fun h => hsp (Fin.ext h)
  ⟨_, exec_ret_ok hdepth, rfl, rfl, rfl, rfl,
    fun k _ => State.reg_congr rfl k, rfl, ⟨rfl, rfl⟩, rfl, fun _ => rfl, ⟨rfl, rfl⟩, rfl, rfl⟩

theorem top_of_sameStack (h : SameStack s t) : t.top = s.top := by
  obtain ⟨hsp, hstack⟩ := h
  simp only [State.top, hsp, hstack]

/-- Settles O25: the return pops what the call pushed, its own address, and 2 is added to it once. -/
theorem callThenReturnResumesAfterTheCall : Obligations.CallThenReturnResumesAfterTheCall := by
  intro nnn s t m u hsp hcall hsame hret
  obtain ⟨t', hcall', hdepth, htop, hslots, -⟩ := callPushesItsOwnAddress nnn s hsp
  obtain rfl : t' = t := Host.Outcome.next.inj (hcall'.symm.trans hcall)
  obtain ⟨hmsp, hmstack⟩ := hsame
  have hmdepth : m.sp.val = s.sp.val + 1 := hmsp ▸ hdepth
  have hlive : m.sp ≠ 0 := fun h => by simp [h] at hmdepth
  obtain ⟨u', hret', hpc, hudepth, hustack, -⟩ := returnLandsTwoAfterThePoppedAddress m hlive
  obtain rfl : u' = u := Host.Outcome.next.inj (hret'.symm.trans hret)
  refine ⟨?_, Fin.ext (by omega), fun k hk => ?_⟩
  · rw [hpc, top_of_sameStack ⟨hmsp, hmstack⟩, htop]
  · rw [hustack, hmstack]
    exact hslots k (Nat.ne_of_lt hk)

/-- Settles O26: at the two ends of the stack the pop and the push are refused, and the refusal is taken as the
fault. -/
theorem stackBoundsFault : Obligations.StackBoundsFault :=
  ⟨fun s hsp => ⟨_, exec_ret_empty (congrArg Fin.val hsp), Engine.faultsWith_takeFault s _ _⟩,
    fun nnn s hsp => ⟨_, exec_call_full nnn hsp, Engine.faultsWith_takeFault s _ _⟩⟩

end Sys2Proof.Proofs.ControlFlow
end

section
namespace Sys2Proof.Proofs.LoadAddRandom

open Sys2Proof Sys2Proof.Machine

theorem exec_addImm (x : Reg) (nn : Byte) (s : State) :
    exec (.addImm x nn) s = conclude (.addImm x nn) s
      (.done (s.setReg x (BitVec.ofNat 8 ((s.reg x).toNat + nn.toNat))) .none .next) := rfl

/-- Settles O29: 7XNN is one register write, and cutting the sum to 8 bits is the remainder modulo 256. -/
theorem addImmediateWrapsWithoutAFlag : Obligations.AddImmediateWrapsWithoutAFlag := fun x nn s => by
  obtain ⟨t, hexec, hsum, hframe⟩ := exists_next_of_setReg (exec_addImm x nn s)
  exact ⟨t, hexec, by rw [hsum, BitVec.toNat_ofNat], hframe⟩

theorem exec_rnd (x : Reg) (nn : Byte) (s : State) :
    exec (.rnd x nn) s = conclude (.rnd x nn) s (.done (s.setReg x (s.input.rnd &&& nn)) .none .next) := rfl

/-- Settles O30: CXNN is one register write, and the AND with NN has no bit outside NN. -/
theorem randomIsMaskedByNn : Obligations.RandomIsMaskedByNn := fun x nn s => by
  obtain ⟨t, hexec, hmask, hframe⟩ := exists_next_of_setReg (exec_rnd x nn s)
  refine ⟨t, hexec, hmask, ?_, hframe⟩
  rw [hmask, BitVec.and_assoc, BitVec.and_not_self]
  exact BitVec.and_zero

end Sys2Proof.Proofs.LoadAddRandom
end

section
namespace Sys2Proof.Proofs.Alu

open Sys2Proof Sys2Proof.Machine Sys2Proof.Proofs.LoadAddRandom

/-- Settles O31: each of the four is one register write, with no flag. -/
theorem assignAndLogicWriteVxOnly : Obligations.AssignAndLogicWriteVxOnly := fun _ _ _ =>
  ⟨exists_next_of_setReg rfl, exists_next_of_setReg rfl, exists_next_of_setReg rfl, exists_next_of_setReg rfl⟩

theorem subByte_toNat (a b : Byte) :
    (subByte a b).toNat = if b.toNat ≤ a.toNat then a.toNat - b.toNat else a.toNat + 256 - b.toNat := by
  have := a.isLt
  have := b.isLt
  rw [subByte, BitVec.toNat_ofNat]
  split <;> omega

/-- An instruction whose effect is the borrow flag and the difference `a - b` (44_alu R146, R148). -/
theorem exists_next_of_subByte {i : Instr} {s : State} {x : Reg} {a b : Byte}
    (he : exec i s = conclude i s (.done (s.setFlagThenReg x (noBorrowFlag a b) (subByte a b)) .none .next)) :
    ∃ t, exec i s = .next t ∧
      (t.reg x).toNat = (if b.toNat ≤ a.toNat then a.toNat - b.toNat else a.toNat + 256 - b.toNat) ∧
      (x ≠ 15 → t.reg 15 = if b.toNat ≤ a.toNat then 1#8 else 0#8) ∧ WritesRegsOnly [x, 15] s t := by
  obtain ⟨t, hexec, hdiff, hflag, hframe⟩ := exists_next_of_setFlagThenReg he
  exact ⟨t, hexec, by rw [hdiff, subByte_toNat], fun hx => by rw [hflag hx, noBorrowFlag, flagByte_decide], hframe⟩

/-- Settles O33: 8XY5 and 8XY7 are one subtraction with the operands exchanged. -/
theorem subtractionsSetNoBorrow : Obligations.SubtractionsSetNoBorrow := fun _ _ _ =>
  ⟨exists_next_of_subByte rfl, exists_next_of_subByte rfl⟩

theorem flagByte_toNat {n : Nat} (h : n < 2) : (flagByte (n == 1)).toNat = n := by
  interval_cases n <;> rfl

theorem evictedRight_toNat (a : Byte) : (evictedRight a).toNat = a.toNat % 2 := flagByte_toNat (by omega)

theorem evictedLeft_toNat (a : Byte) : (evictedLeft a).toNat = a.toNat / 128 :=
  flagByte_toNat (by have := a.isLt; omega)

theorem exec_shr (x y : Reg) (s : State) :
    exec (.shr x y) s = conclude (.shr x y) s
      (.done (s.setFlagThenReg x (evictedRight (s.reg x)) (BitVec.ofNat 8 ((s.reg x).toNat / 2))) .none .next) := rfl

theorem exec_shl (x y : Reg) (s : State) :
    exec (.shl x y) s = conclude (.shl x y) s
      (.done (s.setFlagThenReg x (evictedLeft (s.reg x)) (BitVec.ofNat 8 ((s.reg x).toNat * 2))) .none .next) := rfl

/-- Settles O34: the half of a byte fits, its double is cut to 8 bits, and the one bit that goes out is the flag. -/
theorem shiftsMoveVxByOneAndEvictIntoVf : Obligations.ShiftsMoveVxByOneAndEvictIntoVf := by
  intro x y s
  constructor
  · obtain ⟨t, hexec, hhalf, hflag, hframe⟩ := exists_next_of_setFlagThenReg (exec_shr x y s)
    have := (s.reg x).isLt
    refine ⟨t, hexec, ?_, fun hx => by rw [hflag hx, evictedRight_toNat], hframe⟩
    rw [hhalf, BitVec.toNat_ofNat]
    omega
  · obtain ⟨t, hexec, hdouble, hflag, hframe⟩ := exists_next_of_setFlagThenReg (exec_shl x y s)
    exact ⟨t, hexec, by rw [hdouble, BitVec.toNat_ofNat], fun hx => by rw [hflag hx, evictedLeft_toNat], hframe⟩

end Sys2Proof.Proofs.Alu
end

section
namespace Sys2Proof.Proofs.IndexRegister

open Sys2Proof Sys2Proof.Machine

theorem exec_addI (x : Reg) (s : State) :
    exec (.addI x) s = conclude (.addI x) s (.done (s.setI (s.I + zextByte (s.reg x))) .none .next) := rfl

/-- Settles O36: FX1E is the write of the 16-bit sum to `I`. -/
theorem addToIndexWrapsWithoutAFlag : Obligations.AddToIndexWrapsWithoutAFlag := fun x s => by
  obtain ⟨t, hexec, hindex, hframe⟩ := exists_next_of_setI (exec_addI x s)
  exact ⟨t, hexec, by rw [hindex, BitVec.toNat_add, zextByte_toNat], hframe⟩

theorem exec_ldGlyph (x : Reg) (s : State) :
    exec (.ldGlyph x) s = conclude (.ldGlyph x) s (.done (s.setI (glyphAddr (s.reg x))) .none .next) := rfl

/-- The glyph slots lie inside the address space, whatever the low nibble. -/
theorem glyphAddr_toNat (v : Byte) :
    (glyphAddr v).toNat = Config.fontBase + Config.fontStride * (v.toNat % 16) := by
  simp only [glyphAddr, Config.fontBase, Config.fontStride, BitVec.toNat_ofNat]
  omega

/-- Settles O37: FX29 is the write of a glyph slot's address to `I`. -/
theorem glyphAddressOfTheLowNibble : Obligations.GlyphAddressOfTheLowNibble := fun x s => by
  obtain ⟨t, hexec, hindex, hframe⟩ := exists_next_of_setI (exec_ldGlyph x s)
  exact ⟨t, hexec, by rw [hindex, glyphAddr_toNat], hframe⟩

end Sys2Proof.Proofs.IndexRegister
end

section
namespace Sys2Proof.Proofs.Display

open Sys2Proof Sys2Proof.Machine

/-- Settles O46: the read of the rows is in range, each row is the byte at its address, and the origin is reduced below
the display's size. -/
theorem drawIssuesTheSpriteBytes : Obligations.DrawIssuesTheSpriteBytes := by
  intro x y n s hrange
  have hr : accessInRange s.I.toNat n.val = true := by
    rw [accessInRange_iff, Config.memSize]
    omega
  refine ⟨_, exec_drw_ok x y n hr, ⟨_, _, _, rfl, drawX_toNat _, drawY_toNat _, Memory.length_readBytes _ _ _, ?_⟩, rfl,
    command_sequence_next_frame s _⟩
  exact fun k hk => Memory.getElem?_readBytes s.mem _ hk

end Sys2Proof.Proofs.Display
end

section
namespace Sys2Proof.Proofs.Keypad

open Sys2Proof Sys2Proof.Machine Sys2Proof.Proofs.Skips Sys2Proof.Proofs.LoadAddRandom

/-- Settles O47: the key skips are skips whose test is the tick's key state at the whole byte, and its negation. -/
theorem keySkipsAskTheKeyNamedByVx : Obligations.KeySkipsAskTheKeyNamedByVx := fun _ _ =>
  ⟨exists_next_skipsIff rfl Iff.rfl, exists_next_skipsIff rfl (Bool.not_eq_true' _).to_iff⟩

/-- Settles O49: with no key the action is HOLD, which keeps `pc` and never halts; with a key it is one register
write. -/
theorem keyWaitHoldsUntilAKeyIsReported : Obligations.KeyWaitHoldsUntilAKeyIsReported := by
  refine fun x s => ⟨fun hnone => ?_, fun k hsome => ?_⟩
  · exact ⟨_, exec_waitKey_none x hnone, rfl, rfl, rfl, rfl, fun k _ => State.reg_congr rfl k,
      ⟨rfl, ⟨rfl, rfl⟩, ⟨rfl, rfl⟩, rfl, rfl, rfl⟩, fun _ => rfl⟩
  · exact ⟨_, exec_waitKey_some x hsome, State.reg_setReg_same s x k,
      writesRegsOnly_sequence_next (sameRegsBut_setReg s x k) (sameOutsideRegs_setReg s x k) rfl⟩

end Sys2Proof.Proofs.Keypad
end

section
namespace Sys2Proof.Proofs.Timers

open Sys2Proof Sys2Proof.Machine Sys2Proof.Proofs.LoadAddRandom

/-- Settles O48: FX07 is one register write of `dt`, which it leaves for the end of the tick to count. -/
theorem readTimerSeesTheValueBeforeTheCountdown : Obligations.ReadTimerSeesTheValueBeforeTheCountdown := by
  intro x s hrun
  obtain ⟨t, hexec, hdt, hframe⟩ := exists_next_of_setReg (i := .ldFromDt x) (s := s) rfl
  obtain ⟨-, ⟨-, htrun⟩, ⟨⟨-, -, ⟨htdt, -⟩, -⟩, -⟩, -⟩ := id hframe
  obtain ⟨hcount, -⟩ := Engine.endTick_timers (t := t) (by simp [htrun, hrun])
  exact ⟨t, hexec, hdt, hframe, by rw [hcount, htdt]⟩

/-- What is left of a tick that wrote the timers and nothing else: NEXT, and the countdown of what was written. -/
theorem setTimers_sequence_next {s t : State} (d e : Byte) (hrun : s.run = .running)
    (ht : t = (({ s with dt := d, st := e } : State).setOut ⟨.none, false⟩).sequence s.pc .next) :
    t.endTick.dt.toNat = d.toNat - 1 ∧ t.endTick.st.toNat = e.toNat - 1 ∧ SameRegsBut [] s t ∧ FallsThrough s t ∧
      t.I = s.I ∧ SameStack s t ∧ t.fault = s.fault ∧ SameMem s t ∧ SameInputs s t ∧ IssuesNothing t := by
  have hfall : FallsThrough s t := by
    rw [ht]
    exact ⟨PcAction.target_next s.pc, PcAction.runAfter_next s.pc s.run⟩
  obtain ⟨hdt, hst⟩ := Engine.endTick_timers (t := t) (by rw [hfall.2, hrun]; decide)
  subst ht
  exact ⟨hdt, hst, fun k _ => State.reg_congr rfl k, hfall, rfl, ⟨rfl, rfl⟩, rfl, fun _ => rfl, ⟨rfl, rfl⟩, rfl, rfl⟩

/-- Settles O50: each of the two is one write of a timer, and the countdown comes after it. -/
theorem setTimerThenCountDownInTheSameTick : Obligations.SetTimerThenCountDownInTheSameTick := by
  intro x s hrun
  constructor
  · obtain ⟨hdt, -, hframe⟩ := setTimers_sequence_next (s.reg x) s.st hrun rfl
    exact ⟨_, rfl, rfl, rfl, hdt, hframe⟩
  · obtain ⟨-, hst, hframe⟩ := setTimers_sequence_next s.dt (s.reg x) hrun rfl
    exact ⟨_, rfl, rfl, rfl, hst, hframe⟩

end Sys2Proof.Proofs.Timers
end

section
namespace Sys2Proof.Proofs.Memory

open Sys2Proof Sys2Proof.Machine Sys2Proof.Proofs.ExecuteStage Sys2Proof.Proofs.LoadAddRandom

variable {s t : State}

/-! ### Stores and loads through `I` (45_index_memory R159 to R162) -/

theorem exec_storeBcd (x : Reg) (s : State) :
    exec (.storeBcd x) s = conclude (.storeBcd x) s (storeAtI s (decimalDigits (s.reg x))) := rfl

theorem exec_storeRegs (x : Reg) (s : State) :
    exec (.storeRegs x) s = conclude (.storeRegs x) s (storeAtI s (s.regsUpTo x)) := rfl

/-- An instruction whose effect is one store in range puts each byte at its address and writes nothing else. -/
theorem exists_next_of_storeAtI {i : Instr} {bs : List Byte} (he : exec i s = conclude i s (storeAtI s bs))
    (hr : s.I.toNat + bs.length ≤ 4096) :
    ∃ t, exec i s = .next t ∧ (∀ (k : Nat) (b : Byte), bs[k]? = some b → t.byte (s.I.toNat + k) = b) ∧
      StoresAtIOnly bs.length s t :=
  have hrange : accessInRange s.I.toNat bs.length = true := (accessInRange_iff _ _).mpr (.inr hr)
  ⟨_, he.trans (conclude_storeAtI_ok i hrange), fun _ _ hb => Memory.read_writeBytes_inside s.mem hb,
    fun _ hk => Memory.read_writeBytes_outside s.mem bs hk, fun k _ => State.reg_congr rfl k,
    ⟨PcAction.target_next s.pc, PcAction.runAfter_next s.pc s.run⟩,
    ⟨rfl, ⟨rfl, rfl⟩, ⟨rfl, rfl⟩, rfl, rfl, rfl⟩, rfl, rfl⟩

/-- Settles O38: each digit is below 10, so it fits its byte, and the three stand for the byte they come from. -/
theorem bcdStoresTheThreeDigits : Obligations.BcdStoresTheThreeDigits := by
  intro x s hI
  have := (s.reg x).isLt
  obtain ⟨t, hexec, hbytes, hframe⟩ := exists_next_of_storeAtI (exec_storeBcd x s)
    (show s.I.toNat + 3 ≤ 4096 by omega)
  have hhundreds : (t.byte s.I.toNat).toNat = (s.reg x).toNat / 100 := by
    have hbyte := hbytes 0 _ rfl
    rw [Nat.add_zero] at hbyte
    rw [hbyte, BitVec.toNat_ofNat]; omega
  have htens : (t.byte (s.I.toNat + 1)).toNat = (s.reg x).toNat / 10 % 10 := by
    rw [hbytes 1 _ rfl, BitVec.toNat_ofNat]; omega
  have hones : (t.byte (s.I.toNat + 2)).toNat = (s.reg x).toNat % 10 := by
    rw [hbytes 2 _ rfl, BitVec.toNat_ofNat]; omega
  refine ⟨t, hexec, hhundreds, htens, hones, ?_, hframe⟩
  omega

/-- Settles O39: the bytes of the one store are V[0] to V[x], in order. -/
theorem storeRegistersFromI : Obligations.StoreRegistersFromI := by
  intro x s hI
  have hlen := State.length_regsUpTo s x
  obtain ⟨t, hexec, hbytes, hframe⟩ := exists_next_of_storeAtI (exec_storeRegs x s) (by omega)
  exact ⟨t, hexec, fun k hk => hbytes k.val _ (State.getElem?_regsUpTo s hk), hlen ▸ hframe⟩

theorem sameOutsideRegs_registers (s : State) (v : Vector Byte 16) : SameOutsideRegs s { s with v := v } :=
  ⟨⟨rfl, ⟨rfl, rfl⟩, ⟨rfl, rfl⟩, rfl, rfl, rfl⟩, fun _ => rfl⟩

/-- The sequencer and the outputs leave the registers alone. -/
theorem reg_sequence_setOut (u : State) (o : TickOut) (p : Word) (a : PcAction) (k : Reg) :
    ((u.setOut o).sequence p a).reg k = u.reg k := rfl

/-- Settles O40: the list that is read has a byte for each of V[0] to V[x] and none for the registers above. -/
theorem loadRegistersFromI : Obligations.LoadRegistersFromI := by
  intro x s hI
  have hr : accessInRange s.I.toNat (x.val + 1) = true := (accessInRange_succ_iff _ _).mpr (by omega)
  have hlen := Memory.length_readBytes s.mem s.I.toNat (x.val + 1)
  have hwrites : SameRegsBut (RegsWritten (.loadRegs x)) s (s.setRegs (s.mem.readBytes s.I.toNat (x.val + 1))) :=
    (Writes.loadRegs hlen).regs
  obtain ⟨-, hfall, houtside, hissues⟩ :=
    writesRegsOnly_sequence_next hwrites (sameOutsideRegs_registers s _) (State.setRegs_run s _)
  refine ⟨_, exec_loadRegs_ok x hr, fun k hk => ?_, fun k hk => ?_, hfall, houtside, hissues⟩
  · rw [reg_sequence_setOut, State.reg_setRegs, List.getD_eq_getElem?_getD,
      Memory.getElem?_readBytes _ _ (Nat.lt_succ_of_le hk), Option.getD_some, State.byte]
  · rw [reg_sequence_setOut, reg_setRegs_above hlen hk]

/-- Settles O41: the load reads at the same `I` the bytes that the store put there. -/
theorem storeThenLoadRestoresTheRegisters : Obligations.StoreThenLoadRestoresTheRegisters := by
  intro x s t m u hI hstore hmI hmem hload k hk
  obtain ⟨t', hstore', hstored, -, -, -, ⟨htI, -⟩, -⟩ := storeRegistersFromI x s hI
  obtain rfl : t' = t := Host.Outcome.next.inj (hstore'.symm.trans hstore)
  have hmsI : m.I = s.I := hmI.trans htI
  obtain ⟨u', hload', hloaded, -⟩ := loadRegistersFromI x m (hmsI ▸ hI)
  obtain rfl : u' = u := Host.Outcome.next.inj (hload'.symm.trans hload)
  rw [hloaded k hk, hmsI, hmem, hstored k hk]

/-- Settles O42: the range check comes before the first byte, so the refusal is taken as the fault with nothing
written. -/
theorem accessPast4095Faults : Obligations.AccessPast4095Faults := by
  intro x y n s
  have faults := fun w => Engine.faultsWith_takeFault s ⟨.memoryOutOfRange, firstOutOfRange s.I⟩ w
  have hlen := State.length_regsUpTo s x
  refine ⟨fun hn hI => ?_, fun hI => ?_, fun hI => ?_, fun hI => ?_⟩
  · exact ⟨_, exec_drw_error x y n (accessInRange_eq_false (by omega) (by omega)), faults _⟩
  · exact ⟨_, conclude_storeAtI_error _ (accessInRange_eq_false (n := 3) (by decide) (by omega)), faults _⟩
  · exact ⟨_, conclude_storeAtI_error _ (accessInRange_eq_false (by omega) (by omega)), faults _⟩
  · exact ⟨_, exec_loadRegs_error x (accessInRange_eq_false (by omega) (by omega)), faults _⟩

/-- Settles O43: `I + k` is in range for a fetch, and the two bytes it reads are two neighbours of the store. -/
theorem fetchSeesTheStoredBytes : Obligations.FetchSeesTheStoredBytes := by
  intro x k s t hI hk hstore
  obtain ⟨t', hstore', hstored, -⟩ := storeRegistersFromI x s hI
  obtain rfl : t' = t := Host.Outcome.next.inj (hstore'.symm.trans hstore)
  have hkx : k.val < x.val := hk
  have hsucc : (k + 1).val = k.val + 1 := Fin.val_add_one_of_lt (lt_of_lt_of_le hk (Fin.le_last x))
  have hpc : (s.I + BitVec.ofNat 16 k.val).toNat = s.I.toNat + k.val := by
    rw [BitVec.toNat_add, BitVec.toNat_ofNat]; omega
  have hhi := hstored k hk.le
  have hlo := hstored (k + 1) (by rw [Fin.le_def]; omega)
  rw [hsucc, ← Nat.add_assoc] at hlo
  rw [State.fetch_ok (by simp only [hpc]; omega)]
  simp only [hpc]
  rw [← hhi, ← hlo]
  rfl

/-! ### The canonical form (log 22) -/

/-- Below the first address that a canonical list may hold nothing is listed. -/
theorem read_of_lt_wfFrom {m : Memory} {lo a : Nat} (h : Memory.wfFrom lo m = true) (ha : a < lo) :
    m.read a = Memory.unlisted := by
  induction m generalizing lo with
  | nil => rfl
  | cons c rest ih =>
    obtain ⟨hlo, -, -, hrest⟩ := (Memory.wfFrom_cons rest lo c.1 c.2).mp h
    have hne : c.1 ≠ a := by omega
    rw [Memory.read, if_neg hne]
    exact ih hrest (by omega)

theorem read_head {c : Host.Cell} {m : Memory} : Memory.read (c :: m) c.1 = c.2 := if_pos rfl

/-- A canonical list is one from its first address, whose cell does not read as an unlisted one. -/
theorem wfFrom_head {c : Host.Cell} {m : Memory} {lo : Nat} (h : Memory.wfFrom lo (c :: m) = true) :
    Memory.wfFrom c.1 (c :: m) = true ∧ c.2 ≠ Memory.unlisted ∧ Memory.wfFrom (c.1 + 1) m = true := by
  obtain ⟨-, hk, hb, hrest⟩ := (Memory.wfFrom_cons m lo c.1 c.2).mp h
  exact ⟨(Memory.wfFrom_cons m c.1 c.1 c.2).mpr ⟨le_rfl, hk, hb, hrest⟩, hb, hrest⟩

/-- Two memories that read alike begin no later than each other. -/
theorem le_of_read_eq {c : Host.Cell} {m m' : Memory} {lo : Nat} (hb : c.2 ≠ Memory.unlisted)
    (h' : Memory.wfFrom lo m' = true) (hread : Memory.read (c :: m) c.1 = m'.read c.1) : lo ≤ c.1 := by
  by_contra hlt
  rw [read_head, read_of_lt_wfFrom h' (Nat.lt_of_not_le hlt)] at hread
  exact hb hread

theorem read_tail_eq {c : Host.Cell} {m m' : Memory} (h : Memory.wfFrom (c.1 + 1) m = true)
    (h' : Memory.wfFrom (c.1 + 1) m' = true) (hread : ∀ a, Memory.read (c :: m) a = Memory.read (c :: m') a) (a : Nat) :
    m.read a = m'.read a := by
  by_cases ha : c.1 = a
  · have hlt : a < c.1 + 1 := by omega
    rw [read_of_lt_wfFrom h hlt, read_of_lt_wfFrom h' hlt]
  · have hcons := hread a
    simpa only [Memory.read, if_neg ha] using hcons

theorem eq_of_read_eq {m m' : Memory} {lo : Nat} (h : Memory.wfFrom lo m = true) (h' : Memory.wfFrom lo m' = true)
    (hread : ∀ a, m.read a = m'.read a) : m = m' := by
  induction m generalizing m' lo with
  | nil =>
    cases m' with
    | nil => rfl
    | cons c' rest' =>
      obtain ⟨-, hb', -⟩ := wfFrom_head h'
      exact absurd (le_of_read_eq (lo := c'.1 + 1) hb' rfl (hread c'.1).symm) (Nat.not_succ_le_self c'.1)
  | cons c rest ih =>
    obtain ⟨hhead, hb, hrest⟩ := wfFrom_head h
    cases m' with
    | nil => exact absurd (le_of_read_eq (lo := c.1 + 1) hb rfl (hread c.1)) (Nat.not_succ_le_self c.1)
    | cons c' rest' =>
      obtain ⟨hhead', hb', hrest'⟩ := wfFrom_head h'
      have hkey : c.1 = c'.1 :=
        Nat.le_antisymm (le_of_read_eq hb' hhead (hread c'.1).symm) (le_of_read_eq hb hhead' (hread c.1))
      have hcell : c = c' := Prod.ext hkey (by rw [← read_head (m := rest), hread, hkey, read_head])
      subst hcell
      rw [ih hrest hrest' (read_tail_eq hrest hrest' hread)]

/-- Settles O44: in canonical form the first cell is at the lowest address that does not read as an unlisted one, so the
reads fix it, and with it gone they fix the rest. -/
theorem canonicalMemoriesThatReadAlikeAreEqual : Obligations.CanonicalMemoriesThatReadAlikeAreEqual :=
  fun _ _ => eq_of_read_eq

end Sys2Proof.Proofs.Memory
end
